-- ==== Sys2Proof/Word.lean ====
section
/-! DEFINITION. The quantities of the block: bytes, words and byte sequences (00_scope.md section 5.1; 20_memory.md R30). -/

namespace Sys2Proof

/-- A byte is 8 bits (20_memory.md R30). -/
abbrev Byte := BitVec 8

/-- A word is 32 bits, unsigned (00_scope.md R4 `WORD_BITS`, section 5.1). -/
abbrev Word := BitVec 32

/-- A byte sequence indexed from 0: every operand and every result of the block is one
(20_memory.md R30). -/
abbrev Bytes := List Byte

end Sys2Proof
end

