-- ==== Sys2Proof/Machine/Operands.lean ====
section
/-! DEFINITION. Operands: padding, byte and word access, the key words. Each function is the one of
that name in 00_scope.md section 5.4. -/

namespace Sys2Proof.Machine

/-- `padlen(L)`: L rounded up to a multiple of 4 (20_memory.md R36). -/
def padlen (l : Nat) : Nat := if l % 4 = 0 then l else l + (4 - l % 4)

/-- `PAD_BYTE` (00_scope.md R4; 41_transform.md R84). -/
def padByte : Byte := 0x00

/-- `pad0(b)`: b right-padded with 0x00 to length padlen(len(b)) (20_memory.md R36). -/
def pad0 (b : Bytes) : Bytes := b ++ List.replicate (padlen b.length - b.length) padByte

/-- `MemRead(X+a, 1)` (00_scope.md section 5.3). No operation reads outside a buffer (20_memory.md
R43); the 0 given there is the model's and is read by nothing: log entry 13. -/
def memRead1 (x : Bytes) (a : Nat) : Byte := x.getD a 0

/-- A word from its four bytes, `b0` least significant (20_memory.md R31). -/
def packLe (b0 b1 b2 b3 : Byte) : Word :=
  b0.setWidth 32 ||| (b1.setWidth 32 <<< 8) ||| (b2.setWidth 32 <<< 16) ||| (b3.setWidth 32 <<< 24)

/-- `MemRead(X+a, 4)`, little-endian (00_scope.md section 5.3; 20_memory.md R31). -/
def memRead4 (x : Bytes) (a : Nat) : Word :=
  packLe (memRead1 x a) (memRead1 x (a + 1)) (memRead1 x (a + 2)) (memRead1 x (a + 3))

/-- The four bytes `MemWrite(X+a, 4, v)` leaves at a, a+1, a+2, a+3 (20_memory.md R32). -/
def unpackLe (v : Word) : Bytes :=
  [v.extractLsb' 0 8, v.extractLsb' 8 8, v.extractLsb' 16 8, v.extractLsb' 24 8]

/-- `words_le(b)`: `v[i] = MemRead(b+4i, 4)`, i below len(b)/4 (20_memory.md R31). -/
def wordsLe (b : Bytes) : List Word := (List.range (b.length / 4)).map fun i => memRead4 b (4 * i)

/-- `bytes_le(v)` (20_memory.md R32). -/
def bytesLe (v : List Word) : Bytes := v.flatMap unpackLe

/-- `words_be(b)`: `(zext_32(b[4i]) << 24) | … | zext_32(b[4i+3])` (43_envelope.md R124). No command
uses it: "`words_be` and `bytes_be` appear only in a derived law" (20_memory.md R33). -/
def wordsBe (b : Bytes) : List Word :=
  (List.range (b.length / 4)).map fun i =>
    packLe (memRead1 b (4 * i + 3)) (memRead1 b (4 * i + 2)) (memRead1 b (4 * i + 1)) (memRead1 b (4 * i))

/-- `bytes_be(v)`, the inverse of `words_be` (43_envelope.md R124). -/
def bytesBe (v : List Word) : Bytes := v.flatMap fun w => (unpackLe w).reverse

/-- The four key words `K[0..3]` (10_state.md R13; 00_scope.md R4 `KEY_WORDS`). -/
abbrev KeyWords := Vector Word 4

/-- Byte j of the key extended on the right with zero bytes, `kb[j]` of 10_state.md R13. -/
def keyByte (key : Bytes) (j : Nat) : Byte := if j < key.length then memRead1 key j else 0x00

/-- `K[i]` of 10_state.md R13. -/
def keyWord (key : Bytes) (i : Nat) : Word :=
  packLe (keyByte key (4 * i)) (keyByte key (4 * i + 1)) (keyByte key (4 * i + 2)) (keyByte key (4 * i + 3))

/-- `keywords(key)`: the first 16 key bytes, zero-extended on the right, packed little-endian
(10_state.md R13). -/
def keywords (key : Bytes) : KeyWords :=
  #v[keyWord key 0, keyWord key 1, keyWord key 2, keyWord key 3]

end Sys2Proof.Machine
end

