-- ==== Sys2Proof/Syntax.lean ====
section
/-! DEFINITION. The commands of the block, one constructor per row of spec/opcode_table.json. -/

namespace Sys2Proof

/-- An abstract command, the pair (op, payload) of 30_encoding.md R61. `IN` is the argument, taken
byte for byte in frame order, and `LEN` its length (R58); nothing else is an operand. -/
inductive Instr where
  /-- `SETKEY`, opcode 0x01 (40_key.md R70). -/
  | setkey (payload : Bytes)
  /-- `GETKEY`, opcode 0x02 (40_key.md R71). -/
  | getkey (payload : Bytes)
  /-- `XFORM`, opcode 0x03 (41_transform.md R81). -/
  | xform (payload : Bytes)
  /-- `CENC`, opcode 0x04 (42_cipher.md R97). -/
  | cenc (payload : Bytes)
  /-- `CDEC`, opcode 0x05 (42_cipher.md R98). -/
  | cdec (payload : Bytes)
  /-- `ENC`, opcode 0x06 (43_envelope.md R122). -/
  | enc (payload : Bytes)
  /-- `DEC`, opcode 0x07 (43_envelope.md R123). -/
  | dec (payload : Bytes)
  deriving DecidableEq, Repr

/-- The payload `IN` of a command (30_encoding.md R58). -/
def Instr.payload : Instr → Bytes
  | .setkey b => b
  | .getkey b => b
  | .xform b => b
  | .cenc b => b
  | .cdec b => b
  | .enc b => b
  | .dec b => b

end Sys2Proof
end

