-- ==== Sys2Proof/WellFormed.lean ====
section
/-! DEFINITION. Which commands a frame can carry. -/

namespace Sys2Proof

/-- A command is well formed when its payload fits the 16-bit `LEN` field: "abstract commands whose
payload is at most 65535 bytes long" (30_encoding.md R61, R52). Lengths a command does not accept
are no matter of form: they are answered with a fault (60_exceptions.md R141). -/
abbrev Instr.WellFormed (i : Instr) : Prop := i.payload.length ≤ 65535

end Sys2Proof
end

