-- ==== Sys2Proof/Decode.lean ====
section
/-! DEFINITION. Command frames: the decoder, total on any byte sequence, and the encoder
(30_encoding.md R50 to R56). -/

namespace Sys2Proof

/-- The 16-bit length field from its two bytes, low byte first:
`LEN = zext_16(frame[1]) | (zext_16(frame[2]) << 8)` (30_encoding.md R52). -/
def lenField (lo hi : Byte) : BitVec 16 :=
  lo.setWidth 16 ||| (hi.setWidth 16 <<< 8)

/-- Byte 1 of a frame, `LEN[7:0]` (30_encoding.md R50, R51). -/
def lenLo (n : Nat) : Byte := (BitVec.ofNat 16 n).extractLsb' 0 8

/-- Byte 2 of a frame, `LEN[15:8]` (30_encoding.md R50, R51). -/
def lenHi (n : Nat) : Byte := (BitVec.ofNat 16 n).extractLsb' 8 8

/-- What the decoder makes of one byte sequence: "every byte sequence offered as one frame yields
exactly one of {a legal command, `BAD_FRAME`, `ILLEGAL_OP`}" (30_encoding.md R53). -/
inductive Decoded where
  /-- A legal command. -/
  | command (i : Instr)
  /-- The frame is malformed (30_encoding.md R56). -/
  | badFrame
  /-- The frame is well framed and its opcode is unassigned (30_encoding.md R55). -/
  | illegalOp
  deriving DecidableEq, Repr

/-- The opcode map: exact match on all 8 bits of `OPC` (30_encoding.md R54); every other value is
illegal, 0x00 included (R55). -/
def decodeOp (opc : Byte) (payload : Bytes) : Decoded :=
  match opc.toNat with
  | 0x01 => .command (.setkey payload)
  | 0x02 => .command (.getkey payload)
  | 0x03 => .command (.xform payload)
  | 0x04 => .command (.cenc payload)
  | 0x05 => .command (.cdec payload)
  | 0x06 => .command (.enc payload)
  | 0x07 => .command (.dec payload)
  | _ => .illegalOp

/-- The decoder. A frame shorter than 3 bytes or of a length other than 3 + LEN is `BAD_FRAME`, and
its opcode is not examined (30_encoding.md R53, R56). -/
def decodeFrame : Bytes → Decoded
  | opc :: lo :: hi :: payload =>
    if payload.length = (lenField lo hi).toNat then decodeOp opc payload else .badFrame
  | _ => .badFrame

/-- The opcode of a command (30_encoding.md R54). -/
def opcode : Instr → Byte
  | .setkey _ => 0x01
  | .getkey _ => 0x02
  | .xform _ => 0x03
  | .cenc _ => 0x04
  | .cdec _ => 0x05
  | .enc _ => 0x06
  | .dec _ => 0x07

/-- The command frame of a command: `OPC`, `LEN` low byte first, payload (30_encoding.md R50). -/
def encode (i : Instr) : Bytes :=
  opcode i :: lenLo i.payload.length :: lenHi i.payload.length :: i.payload

/-- Byte `k` of an instruction given as a number, numbered as spec/opcode_table.json numbers bits
(bit 0 is the least significant bit of frame byte 0); every bit at `nbits` and above is 0. -/
def tableByte (nbits w k : Nat) : Byte := BitVec.ofNat 8 ((w % 2 ^ nbits) / 2 ^ (8 * k))

/-- The whole frame of such a number: three header bytes, then as many payload bytes as its `LEN`
says. The table gives a row its opcode byte only, so `LEN` is 0 there; log entry 9. -/
def tableFrame (nbits w : Nat) : Bytes :=
  let lo := tableByte nbits w 1
  let hi := tableByte nbits w 2
  tableByte nbits w 0 :: lo :: hi ::
    (List.range (lenField lo hi).toNat).map fun j => tableByte nbits w (3 + j)

/-- The command the decoder reads from an opcode-table word. -/
def decodeTableWord (nbits w : Nat) : Option Instr :=
  match decodeFrame (tableFrame nbits w) with
  | .command i => some i
  | .badFrame => none
  | .illegalOp => none

end Sys2Proof
end

