-- ==== Sys2Proof/Machine/Response.lean ====
section
/-! DEFINITION. Responses: the six statuses and the response frame (30_encoding.md R51, R57, R61),
and DOC's uniform view of a failure (60_exceptions.md R150). -/

namespace Sys2Proof.Machine

/-- The status of a response: exactly six values (30_encoding.md R57; 93_implementation_defined.md U11). -/
inductive Status where
  /-- The operation completed. -/
  | ok
  /-- A command that needs the key found `KEYV` = 0. -/
  | keyNotSet
  /-- `SETKEY` with LEN = 0 or LEN > KMAX. -/
  | invalidKey
  /-- The operand length is not one the command accepts. -/
  | badLength
  /-- `OPC` is not an assigned opcode. -/
  | illegalOp
  /-- The frame is malformed. -/
  | badFrame
  deriving DecidableEq, Repr

/-- The code carried in `ST` (30_encoding.md R57). -/
def Status.code : Status → Byte
  | .ok => 0x00
  | .keyNotSet => 0x01
  | .invalidKey => 0x02
  | .badLength => 0x03
  | .illegalOp => 0x04
  | .badFrame => 0x05

/-- The status a code stands for; 0x06 to 0xFF are never produced (30_encoding.md R57). -/
def Status.ofCode (c : Byte) : Option Status :=
  match c.toNat with
  | 0x00 => some .ok
  | 0x01 => some .keyNotSet
  | 0x02 => some .invalidKey
  | 0x03 => some .badLength
  | 0x04 => some .illegalOp
  | 0x05 => some .badFrame
  | _ => none

/-- An abstract response, the pair (status, payload) of 30_encoding.md R61. -/
structure Response where
  status : Status
  payload : Bytes
  deriving DecidableEq, Repr

/-- A response a frame can carry: the payload fits `RLEN`, and "When `ST` is not `OK`, RLEN = 0 and
there is no payload" (30_encoding.md R51). -/
abbrev Response.WellFormed (r : Response) : Prop :=
  r.payload.length ≤ 65535 ∧ (r.status ≠ .ok → r.payload = [])

/-- The response frame: `ST`, `RLEN` low byte first, payload (30_encoding.md R51, R52). -/
def Response.frame (r : Response) : Bytes :=
  r.status.code :: lenLo r.payload.length :: lenHi r.payload.length :: r.payload

/-- The host's reading of a response frame, the inverse of `Response.frame` (30_encoding.md R61);
`none` for a sequence that is no response frame of R51. -/
def Response.ofFrame : Bytes → Option Response
  | st :: lo :: hi :: payload =>
    match Status.ofCode st with
    | some status =>
      if payload.length = (lenField lo hi).toNat ∧ (status ≠ .ok → payload = []) then
        some { status := status, payload := payload }
      else none
    | none => none
  | _ => none

/-- DOC's view of a response: `OK` with payload p is `Success(p)`, every other status is `Absent`
(60_exceptions.md R150). -/
def Response.docView (r : Response) : Option Bytes :=
  match r.status with
  | .ok => some r.payload
  | .keyNotSet => none
  | .invalidKey => none
  | .badLength => none
  | .illegalOp => none
  | .badFrame => none

end Sys2Proof.Machine
end

