-- ==== Sys2Proof/Config.lean ====
section
/-! DEFINITION. What an instance of the block fixes: the two named parameters of 00_scope.md R5. -/

namespace Sys2Proof

/-- The parameters of one instance (00_scope.md R5). They are arguments of the model: State carries
them, no command reads them out or changes them (10_state.md R17). DESIGN CHOICE, safe: log entry 1. -/
structure Config where
  /-- `KMAX`: largest key length in bytes that `SETKEY` accepts. -/
  kmax : Nat
  /-- `DMAX`: largest data length in bytes, counted after padding. -/
  dmax : Nat
  deriving DecidableEq, Repr

/-- The constraint column of 00_scope.md R5. -/
abbrev Config.Legal (c : Config) : Prop :=
  16 ≤ c.kmax ∧ c.kmax ≤ 65535 ∧ 8 ≤ c.dmax ∧ c.dmax ≤ 65532 ∧ c.dmax % 4 = 0

/-- "default of this spec" in 00_scope.md R5: KMAX = 64, DMAX = 256. -/
def Config.default : Config := { kmax := 64, dmax := 256 }

end Sys2Proof
end

