-- ==== Sys2Proof/Machine/State.lean ====
section
/-! DEFINITION. The state of the machine, why a step could stop, and the state after reset. -/

namespace Sys2Proof.Machine

/-- What can happen to the block: "each either a command with its response or a reset"
(70_reset_and_hazards.md R183). The block never initiates anything (R182). -/
inductive Event where
  /-- The command port accepts this frame, handed over by the host of this number. The number is the
  platform's (where the response goes); the block has no per-host state (60_exceptions.md R147, R148). -/
  | command (host : Nat) (frame : Bytes)
  /-- Reset between two commands (70_reset_and_hazards.md R170). -/
  | reset
  /-- Reset while this command is in flight: it is abandoned, without state change and without
  response (70_reset_and_hazards.md R170); log entry 6. -/
  | resetDuring (host : Nat) (frame : Bytes)
  deriving DecidableEq, Repr

/-- A response frame and the host it went to (70_reset_and_hazards.md R182). -/
structure Delivery where
  host : Nat
  frame : Bytes
  deriving DecidableEq, Repr

/-- The state between two commands. Its architectural part is the key register alone (10_state.md
R10); the rest is the instance's parameters and the two ports. The working registers and buffers of
R14 and R18 have no value between commands and are not represented (93_implementation_defined.md
U12; log entry 3). -/
structure State where
  /-- `KMAX` and `DMAX` (00_scope.md R5); log entry 1. -/
  cfg : Config
  /-- The key register in the form of 10_state.md R10: `none` is `KEYV` = 0; `some k` is `KEYV` = 1
  with `KLEN` the length of `k` and `KBUF[i]` its byte i; log entry 2. -/
  key : Option Bytes
  /-- The command port: the events the block meets, in acceptance order, next first (20_memory.md
  R39, R40). Nothing constrains the list, so every interleaving of hosts and every time of reset is
  a state; log entry 4. -/
  port : List Event
  /-- The response port: the response frame of the command just executed, until its host has it
  (30_encoding.md R51). -/
  rsp : Option Bytes
  /-- The responses the hosts have got, oldest first: what a run lets one observe
  (70_reset_and_hazards.md R183). No command reads it; log entry 5. -/
  delivered : List Delivery
  deriving DecidableEq, Repr

/-- Why the machine could stop with a fault: nothing. A fault of the block is a response status and
the block goes on (60_exceptions.md R140, R144); it "has no halt, stop or final state"
(70_reset_and_hazards.md R183). No constructor, so nobody raises one: log entry 14. -/
inductive Fault where
  deriving DecidableEq, Repr

/-- Why an instruction could have no meaning. -/
inductive Refusal where
  /-- Raised by an arm of `exec` for a row of the opcode table without a meaning; no arm raises it,
  since all seven commands are modelled. Safe. -/
  | notModelled (mnemonic : String)
  deriving DecidableEq, Repr

/-- The block right after reset with given parameters (10_state.md R20; 70_reset_and_hazards.md
R170): no key, nothing in flight. The ports are empty: DESIGN CHOICE, log entries 4 and 5. -/
def State.resetOf (c : Config) : State :=
  { cfg := c, key := none, port := [], rsp := none, delivered := [] }

/-- The machine right after reset, with the default parameters of 00_scope.md R5. -/
def State.reset : State := State.resetOf Config.default

end Sys2Proof.Machine
end

