-- ==== Sys2Proof/Machine/Ops.lean ====
section
/-! DEFINITION. The operations the meanings share: responding, faulting, the key register, the two
ports, reset. -/

namespace Sys2Proof.Machine

/-- What executing a command answers. -/
abbrev Result := Host.Outcome State Fault Refusal

/-- The response port takes a response frame (30_encoding.md R51). -/
def State.putResponse (s : State) (r : Response) : State := { s with rsp := some r.frame }

/-- The key register takes a key: `KBUF`, `KLEN` and `KEYV` <- 1 as one indivisible update
(40_key.md R70; 20_memory.md R37). -/
def State.setKey (s : State) (k : Bytes) : State := { s with key := some k }

/-- `respond OK(bytes)` (00_scope.md section 5.3). -/
def respondOk (payload : Bytes) (s : State) : Result :=
  .next (s.putResponse { status := .ok, payload := payload })

/-- `raise <Fault>`, the one way a command faults: the architectural state is what it was, the
response carries the fault's code and no payload, and nothing is saved anywhere (60_exceptions.md
R140, R142, R144). There is nothing to return from and no return instruction (R145): the next
command is executed as if the fault had not happened. -/
def raise (st : Status) (s : State) : Result :=
  .next (s.putResponse { status := st, payload := [] })

/-- The key check of `GETKEY`, `CENC`, `CDEC`, `ENC` and `DEC`: `KEY_NOT_SET` when `KEYV` = 0, before
any operand check (60_exceptions.md R141, R143); otherwise the command goes on with the key. -/
def withKey (s : State) (body : Bytes → Result) : Result :=
  match s.key with
  | none => raise .keyNotSet s
  | some k => body k

/-- The answer to a malformed frame (30_encoding.md R56). -/
def answerBadFrame (s : State) : Result := raise .badFrame s

/-- The answer to an unassigned opcode (30_encoding.md R55). -/
def answerIllegalOp (s : State) : Result := raise .illegalOp s

/-- The event at the head of the command port is taken from it; a frame "is consumed once when it
is accepted and is not kept" (20_memory.md R42). -/
def State.takeEvent (s : State) : State := { s with port := s.port.tail }

/-- The reset event: `KEYV` <- 0 and the key forgotten; a response not yet delivered never is
(70_reset_and_hazards.md R170). The parameters are the instance's, the events to come and the
responses the hosts have got are outside the block: they stay (log entry 6). -/
def State.resetEvent (s : State) : State := { s with key := none, rsp := none }

/-- The response port hands its frame to the host whose command it answers (70_reset_and_hazards.md
R182), and is empty again (R183). -/
def State.deliver (s : State) (host : Nat) : State :=
  match s.rsp with
  | some f => { s with rsp := none, delivered := s.delivered ++ [{ host := host, frame := f }] }
  | none => s

end Sys2Proof.Machine
end

