-- ==== Sys2Proof/Machine/Cipher.lean ====
section
/-! DEFINITION. The XXTEA cipher on word arrays and the commands `CENC` and `CDEC` (42_cipher.md).
Rules R90 to R96 are marked in the spec as general knowledge; they are the definition it adopts
for XXTEA: log entry 11. Word arithmetic wraps modulo 2^32 and every shift is logical (R90). -/

namespace Sys2Proof.Machine

/-- `DELTA` (42_cipher.md R91; 00_scope.md R4). -/
def delta : Word := 0x9E3779B9#32

/-- `rounds(N) = 6 + (52 div N)` (42_cipher.md R92). -/
def rounds (n : Nat) : Nat := 6 + 52 / n

/-- `E <- (SUM >> 2) & 3`, the round's key-index selector (42_cipher.md R94, R95; 10_state.md R14). -/
def selector (sum : Word) : BitVec 2 := (sum >>> 2).setWidth 2

/-- `(p & 3) ^ e`, the index of the key word (42_cipher.md R93). -/
def keyIndex (p : Nat) (e : BitVec 2) : Fin 4 := (BitVec.ofNat 2 p ^^^ e).toFin

/-- `MX(sum, y, z, p, e, K)` (42_cipher.md R93). -/
def mx (sum y z : Word) (p : Nat) (e : BitVec 2) (k : KeyWords) : Word :=
  (((z >>> 5) ^^^ (y <<< 2)) + ((y >>> 3) ^^^ (z <<< 4)))
    ^^^ ((sum ^^^ y) + (k.get (keyIndex p e) ^^^ z))

/-- `V[i]`, a read of working word register i (10_state.md R14). Every index used is below N
(20_memory.md R43); the 0 given elsewhere is the model's and is read by nothing: log entry 13. -/
def readV (v : List Word) (i : Nat) : Word := v.getD i 0

/-- The working registers of `BTEA_ENC` that live from one word update to the next (10_state.md
R14); `Y`, `E` and `P` are set before every use and are local to an update, `Q` is the counter of
`encRounds`. -/
structure EncWork where
  v : List Word
  sum : Word
  z : Word
  deriving DecidableEq, Repr

/-- One pass of the loop `for P from 0 to N-2` of `BTEA_ENC` (42_cipher.md R94). -/
def encWord (k : KeyWords) (e : BitVec 2) (w : EncWork) (p : Nat) : EncWork :=
  let y := readV w.v (p + 1)
  let v := w.v.set p (readV w.v p + mx w.sum y w.z p e k)
  { w with v := v, z := readV v p }

/-- The update of `V[N-1]` that ends a round of `BTEA_ENC` (42_cipher.md R94). -/
def encLast (k : KeyWords) (n : Nat) (e : BitVec 2) (w : EncWork) : EncWork :=
  let y := readV w.v 0
  let v := w.v.set (n - 1) (readV w.v (n - 1) + mx w.sum y w.z (n - 1) e k)
  { w with v := v, z := readV v (n - 1) }

/-- One round of `BTEA_ENC` (42_cipher.md R94). -/
def encRound (k : KeyWords) (n : Nat) (w : EncWork) : EncWork :=
  let sum := w.sum + delta
  let e := selector sum
  encLast k n e ((List.range (n - 1)).foldl (encWord k e) { w with sum := sum })

/-- `Q` rounds of `BTEA_ENC` (42_cipher.md R94). -/
def encRounds (k : KeyWords) (n : Nat) : Nat → EncWork → EncWork
  | 0, w => w
  | q + 1, w => encRounds k n q (encRound k n w)

/-- The working registers of `BTEA_ENC` before its first round (42_cipher.md R94). -/
def encStart (v : List Word) (n : Nat) : EncWork := { v := v, sum := 0, z := readV v (n - 1) }

/-- `BTEA_ENC(V, N, K)`, N ≥ 2 (42_cipher.md R94, R96). -/
def bteaEnc (v : List Word) (n : Nat) (k : KeyWords) : List Word :=
  (encRounds k n (rounds n) (encStart v n)).v

/-- The working registers of `BTEA_DEC` that live from one word update to the next (10_state.md
R14); `Z`, `E` and `P` are set before every use and are local to an update, `Q` is the counter of
`decRounds`. -/
structure DecWork where
  v : List Word
  sum : Word
  y : Word
  deriving DecidableEq, Repr

/-- One pass of the loop `for P from N-1 downto 1` of `BTEA_DEC` (42_cipher.md R95). -/
def decWord (k : KeyWords) (e : BitVec 2) (w : DecWork) (p : Nat) : DecWork :=
  let z := readV w.v (p - 1)
  let v := w.v.set p (readV w.v p - mx w.sum w.y z p e k)
  { w with v := v, y := readV v p }

/-- The update of `V[0]` that ends a round of `BTEA_DEC` (42_cipher.md R95). -/
def decLast (k : KeyWords) (n : Nat) (e : BitVec 2) (w : DecWork) : DecWork :=
  let z := readV w.v (n - 1)
  let v := w.v.set 0 (readV w.v 0 - mx w.sum w.y z 0 e k)
  { w with v := v, y := readV v 0 }

/-- One round of `BTEA_DEC`; `E` is computed before `SUM` is decremented (42_cipher.md R95). -/
def decRound (k : KeyWords) (n : Nat) (w : DecWork) : DecWork :=
  let e := selector w.sum
  let w := decLast k n e (((List.range (n - 1)).map fun j => n - 1 - j).foldl (decWord k e) w)
  { w with sum := w.sum - delta }

/-- `Q` rounds of `BTEA_DEC` (42_cipher.md R95). -/
def decRounds (k : KeyWords) (n : Nat) : Nat → DecWork → DecWork
  | 0, w => w
  | q + 1, w => decRounds k n q (decRound k n w)

/-- The working registers of `BTEA_DEC` before its first round (42_cipher.md R95). -/
def decStart (v : List Word) (n : Nat) : DecWork :=
  { v := v, sum := BitVec.ofNat 32 (rounds n) * delta, y := readV v 0 }

/-- `BTEA_DEC(V, N, K)`, N ≥ 2 (42_cipher.md R95, R96). -/
def bteaDec (v : List Word) (n : Nat) (k : KeyWords) : List Word :=
  (decRounds k n (rounds n) (decStart v n)).v

/-- `cipher_encrypt(b, key)`: the data words themselves, no length word added (42_cipher.md R99, R100). -/
def cipherEncrypt (b key : Bytes) : Bytes := bytesLe (bteaEnc (wordsLe b) (b.length / 4) (keywords key))

/-- `cipher_decrypt(b, key)`: no word is read as a length, nothing is stripped (42_cipher.md R99, R100). -/
def cipherDecrypt (b key : Bytes) : Bytes := bytesLe (bteaDec (wordsLe b) (b.length / 4) (keywords key))

/-- The operand check of `CENC` and `CDEC`: LEN aligned, 8 ≤ LEN ≤ DMAX (42_cipher.md R96 to R98;
20_memory.md R35). -/
def rawLengthOk (c : Config) (len : Nat) : Bool := len % 4 = 0 ∧ 8 ≤ len ∧ len ≤ c.dmax

/-- `CENC` (42_cipher.md R97). -/
def execCenc (payload : Bytes) (s : State) : Result :=
  withKey s fun key =>
    if rawLengthOk s.cfg payload.length then respondOk (cipherEncrypt payload key) s
    else raise .badLength s

/-- `CDEC` (42_cipher.md R98). -/
def execCdec (payload : Bytes) (s : State) : Result :=
  withKey s fun key =>
    if rawLengthOk s.cfg payload.length then respondOk (cipherDecrypt payload key) s
    else raise .badLength s

end Sys2Proof.Machine
end

