-- ==== Sys2Proof/Machine/Transform.lean ====
section
/-! DEFINITION. The byte-order transform `T` and the command `XFORM` (41_transform.md). -/

namespace Sys2Proof.Machine

/-- `T(b)`: pad with zeros to a multiple of 4, then reverse the bytes of every word, the words
keeping their order (41_transform.md R80, R84). -/
def transform (b : Bytes) : Bytes :=
  (List.range ((pad0 b).length / 4)).flatMap fun i =>
    [memRead1 (pad0 b) (4 * i + 3), memRead1 (pad0 b) (4 * i + 2),
     memRead1 (pad0 b) (4 * i + 1), memRead1 (pad0 b) (4 * i)]

/-- `bswap32(w)`, byte lanes 0, 1, 2, 3 to lanes 3, 2, 1, 0 (41_transform.md R83). -/
def bswap32 (w : Word) : Word :=
  ((w <<< 24) &&& 0xFF000000#32) ||| ((w <<< 8) &&& 0x00FF0000#32)
    ||| ((w >>> 8) &&& 0x0000FF00#32) ||| ((w >>> 24) &&& 0x000000FF#32)

/-- `XFORM` (41_transform.md R81); the key register is neither read nor needed. -/
def execXform (payload : Bytes) (s : State) : Result :=
  if s.cfg.dmax < padlen payload.length then raise .badLength s
  else respondOk (transform payload) s

end Sys2Proof.Machine
end

