-- ==== Sys2Proof/Machine/Envelope.lean ====
section
/-! DEFINITION. The envelope and the commands `ENC` and `DEC` (43_envelope.md). -/

namespace Sys2Proof.Machine

/-- `encrypt(b, key) = T(cipher_encrypt(T(b), key))` (43_envelope.md R120, R127). -/
def encrypt (b key : Bytes) : Bytes := transform (cipherEncrypt (transform b) key)

/-- `decrypt(b, key) = T(cipher_decrypt(T(b), key))` (43_envelope.md R121, R127). -/
def decrypt (b key : Bytes) : Bytes := transform (cipherDecrypt (transform b) key)

/-- The operand check of `ENC` and `DEC`: 8 ≤ padlen(LEN) ≤ DMAX (43_envelope.md R122, R123). -/
def envelopeLengthOk (c : Config) (len : Nat) : Bool := 8 ≤ padlen len ∧ padlen len ≤ c.dmax

/-- `ENC` (43_envelope.md R122). -/
def execEnc (payload : Bytes) (s : State) : Result :=
  withKey s fun key =>
    if envelopeLengthOk s.cfg payload.length then respondOk (encrypt payload key) s
    else raise .badLength s

/-- `DEC` (43_envelope.md R123). -/
def execDec (payload : Bytes) (s : State) : Result :=
  withKey s fun key =>
    if envelopeLengthOk s.cfg payload.length then respondOk (decrypt payload key) s
    else raise .badLength s

end Sys2Proof.Machine
end

