-- ==== Sys2Proof/Machine/Key.lean ====
section
/-! DEFINITION. The key commands `SETKEY` and `GETKEY` (40_key.md). -/

namespace Sys2Proof.Machine

/-- `SETKEY` (40_key.md R70). -/
def execSetkey (payload : Bytes) (s : State) : Result :=
  if payload.length = 0 ∨ s.cfg.kmax < payload.length then raise .invalidKey s
  else respondOk [] (s.setKey payload)

/-- `GETKEY` (40_key.md R71). -/
def execGetkey (payload : Bytes) (s : State) : Result :=
  withKey s fun key => if payload.length ≠ 0 then raise .badLength s else respondOk key s

end Sys2Proof.Machine
end

