-- ==== Sys2Proof/Machine/Dispatch.lean ====
section
/-! DEFINITION. One arm per command (30_encoding.md R54). -/

namespace Sys2Proof.Machine

def exec (i : Instr) (s : State) : Host.Outcome State Fault Refusal :=
  match i with
  | .setkey payload => Sys2Proof.Machine.execSetkey payload s
  | .getkey payload => Sys2Proof.Machine.execGetkey payload s
  | .xform payload => Sys2Proof.Machine.execXform payload s
  | .cenc payload => Sys2Proof.Machine.execCenc payload s
  | .cdec payload => Sys2Proof.Machine.execCdec payload s
  | .enc payload => Sys2Proof.Machine.execEnc payload s
  | .dec payload => Sys2Proof.Machine.execDec payload s

end Sys2Proof.Machine
end

