-- ==== Sys2Proof/Machine/Step.lean ====
section
/-! DEFINITION. One step: the block meets the next event of its command port. -/

namespace Sys2Proof.Machine

/-- A frame is executed or refused with a status: the decoder is total (30_encoding.md R53) and every
command has a response (60_exceptions.md R140). -/
def runFrame (frame : Bytes) (s : State) : Host.Outcome State Fault Refusal :=
  match decodeFrame frame with
  | .command i => exec i s
  | .badFrame => answerBadFrame s
  | .illegalOp => answerIllegalOp s

/-- The response just produced goes to its host before the next command is accepted (20_memory.md R39). -/
def deliverTo (host : Nat) : Host.Outcome State Fault Refusal → Host.Outcome State Fault Refusal
  | .next s => .next (s.deliver host)
  | .fault r => .fault r
  | .refused r => .refused r

/-- One step. A command is taken from the port, executed atomically and answered (20_memory.md R37,
R39); a reset forgets the key and, when it cuts off a command, that command has no effect and no
response (70_reset_and_hazards.md R170); with no event the block waits, unchanged (R183; log entry 7). -/
def step (s : State) : Host.Outcome State Fault Refusal :=
  match s.port with
  | [] => .next s
  | .command host frame :: _ => deliverTo host (runFrame frame s.takeEvent)
  | .reset :: _ => .next s.takeEvent.resetEvent
  | .resetDuring _ _ :: _ => .next s.takeEvent.resetEvent

/-- `s` with the command frame of an opcode-table word as the next event of its command port, handed
over by host 0; log entries 8 and 9. -/
def State.withFetchWord (s : State) (nbits w : Nat) : State :=
  { s with port := .command 0 (tableFrame nbits w) :: s.port }

end Sys2Proof.Machine
end

