-- ==== Sys2Proof/Machine/Flags.lean ====
section
/-! DEFINITION. The key register's fields as reads of State. `KEYV` is the only flag; there are no
condition codes and no command writes a flag as a side effect but `SETKEY` (10_state.md R16). -/

namespace Sys2Proof.Machine

/-- `KEYV`, key valid (10_state.md R11). -/
def State.keyv (s : State) : Bool := s.key.isSome

/-- `KLEN` (10_state.md R12). It is not observable while `KEYV` = 0, and no command reads it then;
the 0 given there is the model's: log entry 2. -/
def State.klen (s : State) : Nat :=
  match s.key with
  | some k => k.length
  | none => 0

/-- `KBUF[0..KLEN-1]` (10_state.md R12), empty while `KEYV` = 0, when no command reads it: log entry 2. -/
def State.kbuf (s : State) : Bytes :=
  match s.key with
  | some k => k
  | none => []

end Sys2Proof.Machine
end

