-- ==== Sys2Proof/Safety.lean ====
section
/-! DEFINITION. What counts as a safe state and a right run, in the terms the statements use. The
functions here are written from the tables of the spec, not from the meanings in Machine/. -/

namespace Sys2Proof.Safety

open Sys2Proof.Machine

/-- "While `KEYV`=1: 1 ≤ `KLEN` ≤ `KMAX`" (10_state.md R12). -/
abbrev KeyLegal (c : Config) (key : Option Bytes) : Prop :=
  ∀ k ∈ key, 1 ≤ k.length ∧ k.length ≤ c.kmax

/-- A response frame of 30_encoding.md R51 whose payload fits the `OUT` buffer, at most
max(DMAX, KMAX) bytes (10_state.md R18). -/
abbrev ResponseFrameLegal (c : Config) (frame : Bytes) : Prop :=
  ∃ r ∈ Response.ofFrame frame, r.payload.length ≤ max c.dmax c.kmax

/-- A state a run can reach: legal parameters (00_scope.md R5), a legal key register (10_state.md
R12), an empty response port (70_reset_and_hazards.md R183: between commands "nothing is pending"),
and only legal response frames delivered (30_encoding.md R51, R57). -/
abbrev Inv (s : State) : Prop :=
  s.cfg.Legal ∧ KeyLegal s.cfg s.key ∧ s.rsp = none ∧ ∀ d ∈ s.delivered, ResponseFrameLegal s.cfg d.frame

/-- A malformed frame (30_encoding.md R56, with LEN read by R52). -/
abbrev Malformed (f : Bytes) : Prop :=
  f.length < 3 ∨ f.length ≠ 3 + ((f.getD 1 0).toNat + 256 * (f.getD 2 0).toNat)

/-- An assigned opcode, 0x01 to 0x07 (30_encoding.md R54, R55). -/
abbrev Assigned (f : Bytes) : Prop := 1 ≤ (f.getD 0 0).toNat ∧ (f.getD 0 0).toNat ≤ 7

/-- The status a frame is answered with: the table of 60_exceptions.md R141 in the order of R143,
read from the frame's bytes. -/
def frameStatus (c : Config) (keyv : Bool) (f : Bytes) : Status :=
  let opc := (f.getD 0 0).toNat
  let len := f.length - 3
  if Malformed f then .badFrame
  else if ¬ Assigned f then .illegalOp
  else if (opc = 2 ∨ opc = 4 ∨ opc = 5 ∨ opc = 6 ∨ opc = 7) ∧ keyv = false then .keyNotSet
  else if opc = 1 ∧ (len = 0 ∨ c.kmax < len) then .invalidKey
  else if opc = 2 ∧ len ≠ 0 then .badLength
  else if opc = 3 ∧ c.dmax < padlen len then .badLength
  else if (opc = 4 ∨ opc = 5) ∧ (len % 4 ≠ 0 ∨ len < 8 ∨ c.dmax < len) then .badLength
  else if (opc = 6 ∨ opc = 7) ∧ (padlen len < 8 ∨ c.dmax < padlen len) then .badLength
  else .ok

/-- The response payload of a command that completes (30_encoding.md R54, column `OUT` on `OK`),
read from the frame's bytes; `key` is the key register's content. -/
def okPayload (key : Bytes) (f : Bytes) : Bytes :=
  match (f.getD 0 0).toNat with
  | 2 => key
  | 3 => transform (f.drop 3)
  | 4 => cipherEncrypt (f.drop 3) key
  | 5 => cipherDecrypt (f.drop 3) key
  | 6 => encrypt (f.drop 3) key
  | 7 => decrypt (f.drop 3) key
  | _ => []

/-- The response to a frame that finds this key register (10_state.md R19): the status, and a payload
only with `OK` (60_exceptions.md R144). -/
def answer (c : Config) (key : Option Bytes) (f : Bytes) : Response :=
  let st := frameStatus c key.isSome f
  { status := st, payload := if st = .ok then okPayload (key.getD []) f else [] }

/-- The key register a frame leaves: a successful `SETKEY` writes it, nothing else does (40_key.md
R70, R73). -/
def keyAfter (c : Config) (key : Option Bytes) (f : Bytes) : Option Bytes :=
  if (f.getD 0 0).toNat = 1 ∧ frameStatus c key.isSome f = .ok then some (f.drop 3) else key

/-- What a sequence of events in acceptance order leaves in the key register and delivers: each
command sees "the key register as left by the latest earlier successful `SETKEY` (or by reset if
there is none)" (20_memory.md R39); a reset forgets the key, and the command it cuts off has no
response (70_reset_and_hazards.md R170). -/
def outcome (c : Config) : Option Bytes → List Event → Option Bytes × List Delivery
  | key, [] => (key, [])
  | key, .command h f :: es =>
    let rest := outcome c (keyAfter c key f) es
    (rest.1, { host := h, frame := (answer c key f).frame } :: rest.2)
  | _, .reset :: es => outcome c none es
  | _, .resetDuring _ _ :: es => outcome c none es

/-- The frames one host hands over in a sequence of events, in its own order (20_memory.md R40). -/
def commandsOf (host : Nat) (es : List Event) : List Bytes :=
  es.filterMap fun e =>
    match e with
    | .command h f => if h = host then some f else none
    | .reset => none
    | .resetDuring h f => if h = host then some f else none

/-- The response frames one host has got, in order. -/
def responsesTo (host : Nat) (ds : List Delivery) : List Bytes :=
  ds.filterMap fun d => if d.host = host then some d.frame else none

/-- One encryption round as a relation between the word array before it, `v`, and after it, `v'`:
every word gains `MX` of its right and left neighbours; the right one is still old but for the last
word, the left one is new but for the first word (42_cipher.md R94, with `E` of `sum`). -/
abbrev EncRoundRel (k : KeyWords) (n : Nat) (sum : Word) (v v' : List Word) : Prop :=
  v'.length = n ∧ ∀ p < n, readV v' p = readV v p +
    mx sum (if p + 1 < n then readV v (p + 1) else readV v' 0)
      (if p = 0 then readV v (n - 1) else readV v' (p - 1)) p (selector sum) k

/-- One decryption round as a relation between the word array before it, `v`, and after it, `v'`:
every word loses `MX` of its right and left neighbours; the right one is already restored but for
the last word, the left one is not yet restored but for the first word (42_cipher.md R95). -/
abbrev DecRoundRel (k : KeyWords) (n : Nat) (sum : Word) (v v' : List Word) : Prop :=
  v'.length = n ∧ ∀ p < n, readV v' p = readV v p -
    mx sum (if p + 1 < n then readV v' (p + 1) else readV v 0)
      (if p = 0 then readV v' (n - 1) else readV v (p - 1)) p (selector sum) k

end Sys2Proof.Safety
end

