-- ==== Sys2Proof/Certificates/Slice0/Obligations.lean ====
section
/-! DEFINITION. The statements for the provers. In them `Response.frame r` is the response frame of
30_encoding.md R51, whose bytes `ResponseFrameLayout` states. Equalities of a next state say its
frame as well: every field not written after `with` is unchanged. -/

open Sys2Proof Sys2Proof.Machine Sys2Proof.Safety

/-! ## Encoding -/

/-- 95_test_vectors.md section 6.2 and V-F13 to V-F17: frames written out byte by byte decode to the
command they stand for, or are refused. -/
def Obligations.WrittenOutFramesDecode : Prop :=
  decodeFrame [0x01, 0x03, 0x00, 0x61, 0x62, 0x63] = .command (.setkey [0x61, 0x62, 0x63]) ∧
  decodeFrame [0x02, 0x00, 0x00] = .command (.getkey []) ∧
  decodeFrame [0x03, 0x05, 0x00, 0x01, 0x02, 0x03, 0x04, 0x05] = .command (.xform [0x01, 0x02, 0x03, 0x04, 0x05]) ∧
  decodeFrame [0x04, 0x08, 0x00, 0x10, 0x11, 0x12, 0x13, 0x14, 0x15, 0x16, 0x17] =
    .command (.cenc [0x10, 0x11, 0x12, 0x13, 0x14, 0x15, 0x16, 0x17]) ∧
  decodeFrame [0x05, 0x08, 0x00, 0x10, 0x11, 0x12, 0x13, 0x14, 0x15, 0x16, 0x17] =
    .command (.cdec [0x10, 0x11, 0x12, 0x13, 0x14, 0x15, 0x16, 0x17]) ∧
  decodeFrame [0x06, 0x08, 0x00, 0x2A, 0x2C, 0x00, 0x00, 0x00, 0x00, 0x00, 0x00] =
    .command (.enc [0x2A, 0x2C, 0x00, 0x00, 0x00, 0x00, 0x00, 0x00]) ∧
  decodeFrame [0x07, 0x08, 0x00, 0x35, 0xC4, 0xB1, 0x30, 0x14, 0xAF, 0x9C, 0xEE] =
    .command (.dec [0x35, 0xC4, 0xB1, 0x30, 0x14, 0xAF, 0x9C, 0xEE]) ∧
  decodeFrame [0x00, 0x00, 0x00] = .illegalOp ∧
  decodeFrame [0xFF, 0x02, 0x00, 0xAA, 0xBB] = .illegalOp ∧
  decodeFrame [0x06, 0x02, 0x00, 0xAA] = .badFrame ∧
  decodeFrame [0x06, 0x08] = .badFrame ∧
  decodeFrame [0xFF, 0x05, 0x00, 0xAA] = .badFrame

/-- 30_encoding.md R52: `LEN` and `RLEN` are unsigned, low byte first, range 0..65535, and count
payload bytes only. -/
def Obligations.LengthFieldsAreLittleEndian : Prop :=
  (∀ lo hi : Byte, (lenField lo hi).toNat = lo.toNat + 256 * hi.toNat) ∧
  (∀ i : Instr, i.WellFormed →
    ((encode i).getD 1 0).toNat + 256 * ((encode i).getD 2 0).toNat = (encode i).length - 3) ∧
  (∀ r : Response, r.WellFormed →
    (r.frame.getD 1 0).toNat + 256 * (r.frame.getD 2 0).toNat = r.frame.length - 3)

/-- 30_encoding.md R51, R57: byte 0 of a response frame is the code of its status, the payload begins
at byte 3; the six codes are 0x00 to 0x05, distinct, and no other byte is a code. -/
def Obligations.ResponseFrameLayout : Prop :=
  (∀ r : Response, r.frame.length = 3 + r.payload.length ∧ r.frame.head? = some r.status.code ∧
    r.frame.drop 3 = r.payload) ∧
  Status.code .ok = 0x00 ∧ Status.code .keyNotSet = 0x01 ∧ Status.code .invalidKey = 0x02 ∧
  Status.code .badLength = 0x03 ∧ Status.code .illegalOp = 0x04 ∧ Status.code .badFrame = 0x05 ∧
  (∀ c : Byte, Status.ofCode c = none ↔ 6 ≤ c.toNat) ∧
  (∀ (c : Byte) (st : Status), Status.ofCode c = some st ↔ st.code = c)

/-- 30_encoding.md R61: the frame encodings of R50 and R51 are a bijection between well-formed frames
with a legal opcode and abstract commands whose payload is at most 65535 bytes long, and between
response frames and abstract responses. -/
def Obligations.FramesAndAbstractFormsAgree : Prop :=
  (∀ i : Instr, i.WellFormed → decodeFrame (encode i) = .command i) ∧
  (∀ (f : Bytes) (i : Instr), decodeFrame f = .command i → i.WellFormed ∧ encode i = f) ∧
  (∀ r : Response, r.WellFormed → Response.ofFrame r.frame = some r) ∧
  (∀ (f : Bytes) (r : Response), Response.ofFrame f = some r → r.WellFormed ∧ r.frame = f)

/-- 30_encoding.md R53, R55, R56: the decoder sorts every byte sequence into exactly one of
`BAD_FRAME`, `ILLEGAL_OP` and a legal command, by the frame's length and its first byte; a malformed
frame is answered `BAD_FRAME`, a well-framed one with an unassigned opcode `ILLEGAL_OP`, both without
payload and without change of the architectural state. -/
def Obligations.EveryByteSequenceIsSortedAndAnswered : Prop :=
  (∀ f : Bytes,
    (decodeFrame f = .badFrame ↔ Malformed f) ∧
    (decodeFrame f = .illegalOp ↔ ¬ Malformed f ∧ ¬ Assigned f) ∧
    ((∃ i, decodeFrame f = .command i) ↔ ¬ Malformed f ∧ Assigned f)) ∧
  (∀ (s : State) (h : Nat) (f : Bytes) (es : List Event), s.port = .command h f :: es →
    (Malformed f → step s = .next { s with
      port := es, rsp := none, delivered := s.delivered ++ [{ host := h, frame := [0x05, 0x00, 0x00] }] }) ∧
    (¬ Malformed f → ¬ Assigned f → step s = .next { s with
      port := es, rsp := none, delivered := s.delivered ++ [{ host := h, frame := [0x04, 0x00, 0x00] }] }))

/-! ## The machine -/

/-- 10_state.md R20: after reset no key is set and the response buffer holds nothing, whatever the
parameters. -/
def Obligations.ResetLeavesNoKey : Prop :=
  (∀ c : Config, (State.resetOf c).keyv = false ∧ (State.resetOf c).key = none ∧
    (State.resetOf c).rsp = none) ∧
  State.reset.keyv = false ∧ State.reset.key = none ∧ State.reset.rsp = none

/-- The state after reset meets the invariant `Inv`, for all legal parameters. -/
def Obligations.ResetMeetsInvariant : Prop :=
  (∀ c : Config, c.Legal → Inv (State.resetOf c)) ∧ Inv State.reset

/-- Every step keeps `Inv`: legal parameters, a legal key register (10_state.md R12), an empty
response port between commands (70_reset_and_hazards.md R183), and legal response frames only, of at
most max(DMAX, KMAX) payload bytes (10_state.md R18; 20_memory.md R43; 30_encoding.md R51, R57). -/
def Obligations.StepKeepsInvariant : Prop :=
  ∀ s t : State, Inv s → step s = .next t → Inv t

/-- A step with a command at the head of the port runs the command its frame decodes to, on the state
whose port holds the rest, and hands the response to the command's host. -/
def Obligations.StepRunsTheDecodedCommand : Prop :=
  ∀ (s : State) (h : Nat) (f : Bytes) (es : List Event) (i : Instr),
    s.port = .command h f :: es → decodeFrame f = .command i →
    ∃ t r, exec i { s with port := es } = .next t ∧ t.rsp = some r ∧
      step s = .next { t with rsp := none, delivered := t.delivered ++ [{ host := h, frame := r }] }

/-- 60_exceptions.md R140: a command never hangs, never answers twice and never goes unanswered
(except when reset intervenes): its step is a next state, takes that one event and delivers exactly
one response frame, to its host. -/
def Obligations.EveryCommandIsAnsweredOnce : Prop :=
  ∀ (s : State) (h : Nat) (f : Bytes) (es : List Event), s.port = .command h f :: es →
    ∃ (k : Option Bytes) (r : Response), step s = .next { s with
      key := k, port := es, rsp := none, delivered := s.delivered ++ [{ host := h, frame := r.frame }] }

/-- Derived from 70_reset_and_hazards.md R170: reset forgets the key, delivers nothing, and a command it
cuts off changes no state and has no response. The event `resetDuring`, and that the parameters, the
later events and the responses already delivered stay, are the model's choice: log entry 6. -/
def Obligations.ResetForgetsTheKey : Prop :=
  ∀ (s : State) (h : Nat) (f : Bytes) (es : List Event),
    s.port = .reset :: es ∨ s.port = .resetDuring h f :: es →
    step s = .next { s with port := es, key := none, rsp := none }

/-- 70_reset_and_hazards.md R183: with no event the block waits; that a step then answers the same
state is the model's choice: log entry 7. -/
def Obligations.QuiescentBlockWaits : Prop :=
  ∀ s : State, s.port = [] → step s = .next s

/-- 10_state.md R10, R11 and 40_key.md R73: one step leaves the key register alone unless it is a
reset, which clears it, or a `SETKEY` of legal length, which loads its payload; it never changes the
parameters. -/
def Obligations.OnlySetkeyAndResetWriteTheKey : Prop :=
  ∀ s t : State, step s = .next t → t.cfg = s.cfg ∧
    (t.key = s.key ∨
      (t.key = none ∧ (s.port.head? = some .reset ∨ ∃ h f, s.port.head? = some (.resetDuring h f))) ∨
      ∃ h f p, s.port.head? = some (.command h f) ∧ decodeFrame f = .command (.setkey p) ∧
        1 ≤ p.length ∧ p.length ≤ s.cfg.kmax ∧ t.key = some p)

/-- 10_state.md R19: the response to a command, and the key register it leaves, are a function of the
command and of the key register when it is accepted (and the instance's parameters): not of earlier
data, earlier responses, later events or the host that asked (60_exceptions.md R147). -/
def Obligations.ResponsesDependOnCommandAndKeyOnly : Prop :=
  ∀ (s t : State) (h g : Nat) (f : Bytes) (es us : List Event),
    s.port = .command h f :: es → t.port = .command g f :: us → s.cfg = t.cfg → s.key = t.key →
    ∃ (k : Option Bytes) (r : Bytes),
      step s = .next { s with
        key := k, port := es, rsp := none, delivered := s.delivered ++ [{ host := h, frame := r }] } ∧
      step t = .next { t with
        key := k, port := us, rsp := none, delivered := t.delivered ++ [{ host := g, frame := r }] }

/-! ## Faults -/

/-- 60_exceptions.md R141, R143, R144: the status of every response is the one of the fault table,
read from the frame's bytes in the order of priority; a fault's response has no payload and leaves
the architectural state as it was. -/
def Obligations.FaultsFollowTheTableAndItsPriority : Prop :=
  ∀ (s : State) (h : Nat) (f : Bytes) (es : List Event), s.port = .command h f :: es →
    (frameStatus s.cfg s.keyv f ≠ .ok → step s = .next { s with
      port := es, rsp := none
      delivered := s.delivered ++ [{ host := h, frame := [(frameStatus s.cfg s.keyv f).code, 0x00, 0x00] }] }) ∧
    (frameStatus s.cfg s.keyv f = .ok → ∃ (k : Option Bytes) (b : Bytes), step s = .next { s with
      key := k, port := es, rsp := none
      delivered := s.delivered ++ [{ host := h, frame := Response.frame { status := .ok, payload := b } }] })

/-- 70_reset_and_hazards.md R171: after reset `SETKEY` and `XFORM` can succeed at once, the other five
commands answer `KEY_NOT_SET` whatever their payload. -/
def Obligations.AfterResetOnlySetkeyAndXformSucceed : Prop :=
  ∀ (c : Config) (b : Bytes), c.Legal →
    (∀ i, i = .getkey b ∨ i = .cenc b ∨ i = .cdec b ∨ i = .enc b ∨ i = .dec b →
      exec i (State.resetOf c) = .next { State.resetOf c with rsp := some [0x01, 0x00, 0x00] }) ∧
    (1 ≤ b.length → b.length ≤ c.kmax →
      exec (.setkey b) (State.resetOf c) = .next { State.resetOf c with key := some b, rsp := some [0x00, 0x00, 0x00] }) ∧
    (b.length ≤ c.dmax → ∃ r : Bytes, exec (.xform b) (State.resetOf c) =
      .next { State.resetOf c with rsp := some (Response.frame { status := .ok, payload := r }) })

/-- 60_exceptions.md R150: `OK` with payload p is `Success(p)`, every other status is `Absent`. -/
def Obligations.DocViewOfResponses : Prop :=
  ∀ r : Response, (r.status = .ok → r.docView = some r.payload) ∧ (r.status ≠ .ok → r.docView = none)

/-! ## Key commands -/

/-- 40_key.md R70: `SETKEY`, opcode 0x01, of 1 to KMAX bytes loads the key, of any other length it faults with
`INVALID_KEY` and the previous key stays. -/
def Obligations.SetkeyLoadsTheKey : Prop :=
  ∀ (s : State) (p : Bytes),
    (encode (.setkey p)).head? = some 0x01 ∧
    (1 ≤ p.length → p.length ≤ s.cfg.kmax → ∃ t, exec (.setkey p) s = .next t ∧
      t = { s with key := some p, rsp := some [0x00, 0x00, 0x00] } ∧
      t.keyv = true ∧ t.klen = p.length ∧ t.kbuf = p) ∧
    (p.length = 0 ∨ s.cfg.kmax < p.length →
      exec (.setkey p) s = .next { s with rsp := some [0x02, 0x00, 0x00] })

/-- 40_key.md R71: `GETKEY`, opcode 0x02, answers the exact bytes of the key, and faults with `KEY_NOT_SET` without a
key, otherwise with `BAD_LENGTH` when its payload is not empty; it changes nothing else. -/
def Obligations.GetkeyAnswersTheKey : Prop :=
  ∀ (s : State) (p : Bytes),
    (encode (.getkey p)).head? = some 0x02 ∧
    (s.key = none → exec (.getkey p) s = .next { s with rsp := some [0x01, 0x00, 0x00] }) ∧
    (∀ k, s.key = some k → p ≠ [] → exec (.getkey p) s = .next { s with rsp := some [0x03, 0x00, 0x00] }) ∧
    (∀ k, s.key = some k →
      exec (.getkey []) s = .next { s with rsp := some (Response.frame { status := .ok, payload := k }) })

/-- 20_memory.md R37: `SETKEY` twice with the same payload leaves the same state as once; any other
command leaves the key register alone, so repeating it gives the same response. -/
def Obligations.CommandsAreIdempotent : Prop :=
  ∀ (s : State) (i : Instr), ∃ t, exec i s = .next t ∧ exec i t = .next t ∧
    ((∀ p, i ≠ .setkey p) → t.key = s.key)

/-- 40_key.md R72: two keys have the same key words exactly when their first 16 bytes, each
zero-extended to 16, are equal; `CENC`, `CDEC`, `ENC` and `DEC` then answer alike under both. -/
def Obligations.EquivalentKeysCipherAlike : Prop :=
  (∀ k1 k2 : Bytes, keywords k1 = keywords k2 ↔ ∀ j < 16, k1.getD j 0 = k2.getD j 0) ∧
  (∀ (s : State) (k1 k2 b : Bytes) (i : Instr), keywords k1 = keywords k2 →
    i = .cenc b ∨ i = .cdec b ∨ i = .enc b ∨ i = .dec b →
    ∃ r, exec i { s with key := some k1 } = .next { s with key := some k1, rsp := some r } ∧
      exec i { s with key := some k2 } = .next { s with key := some k2, rsp := some r })

/-! ## Bytes, words, the transform -/

/-- 20_memory.md R36: the padding arithmetic. -/
def Obligations.PaddingArithmetic : Prop :=
  (∀ l : Nat, (l % 4 = 0 → padlen l = l) ∧ (l % 4 ≠ 0 → padlen l = l + (4 - l % 4))) ∧
  (∀ b : Bytes, pad0 b = b ++ List.replicate (padlen b.length - b.length) 0x00) ∧
  padlen 0 = 0 ∧ padlen 5 = 8 ∧ padlen 7 = 8 ∧ padlen 8 = 8 ∧ padlen 11 = 12

/-- 20_memory.md R31: the byte of lowest index is the least significant byte of the word, and the
32-bit value of each word is that of its four bytes. -/
def Obligations.WordPackingIsLittleEndian : Prop :=
  (∀ b : Bytes, b.length % 4 = 0 → (wordsLe b).length = b.length / 4 ∧
    ∀ i < b.length / 4, ((wordsLe b).getD i 0).toNat =
      (b.getD (4 * i) 0).toNat + 2 ^ 8 * (b.getD (4 * i + 1) 0).toNat +
      2 ^ 16 * (b.getD (4 * i + 2) 0).toNat + 2 ^ 24 * (b.getD (4 * i + 3) 0).toNat) ∧
  wordsLe [0x10, 0x11, 0x12, 0x13] = [0x13121110]

/-- 20_memory.md R32: `b[4i+j]` is `v[i][8j+7:8j]`, packing and unpacking are inverse, and the length is
preserved exactly. -/
def Obligations.WordUnpackingInvertsPacking : Prop :=
  (∀ b : Bytes, b.length % 4 = 0 → bytesLe (wordsLe b) = b) ∧
  (∀ v : List Word, wordsLe (bytesLe v) = v ∧ (bytesLe v).length = 4 * v.length ∧
    ∀ i < v.length, ∀ j < 4, (bytesLe v).getD (4 * i + j) 0 = (v.getD i 0).extractLsb' (8 * j) 8) ∧
  bytesLe [0xF0745BAD] = [0xAD, 0x5B, 0x74, 0xF0]

/-- 10_state.md R13: the key words are the first 16 key bytes, zero-extended on the right, packed
little-endian; the bytes from index 16 on have no influence. -/
def Obligations.KeyWordsFromKeyBytes : Prop :=
  (∀ (key : Bytes) (i : Fin 4), ((keywords key).get i).toNat =
    (key.getD (4 * i.val) 0).toNat + 2 ^ 8 * (key.getD (4 * i.val + 1) 0).toNat +
    2 ^ 16 * (key.getD (4 * i.val + 2) 0).toNat + 2 ^ 24 * (key.getD (4 * i.val + 3) 0).toNat) ∧
  (∀ key : Bytes, keywords (key.take 16) = keywords key) ∧
  keywords [0x61, 0x62, 0x63] = #v[0x00636261, 0, 0, 0] ∧
  keywords [0x00, 0x01, 0x02, 0x03, 0x04, 0x05, 0x06, 0x07, 0x08, 0x09, 0x0A, 0x0B, 0x0C, 0x0D, 0x0E, 0x0F] =
    #v[0x03020100, 0x07060504, 0x0B0A0908, 0x0F0E0D0C]

/-- 41_transform.md R80, R81, R84: `XFORM`, opcode 0x03, answers `OK` with padlen(LEN) bytes, byte a of which is byte
4*(a div 4) + (3 - (a mod 4)) of the zero-padded payload; it faults with `BAD_LENGTH` exactly when
padlen(LEN) > DMAX; it neither needs nor changes the key. -/
def Obligations.XformReversesEveryWord : Prop :=
  ∀ (s : State) (b : Bytes),
    (encode (.xform b)).head? = some 0x03 ∧
    (padlen b.length ≤ s.cfg.dmax → ∃ r : Bytes,
      exec (.xform b) s = .next { s with rsp := some (Response.frame { status := .ok, payload := r }) } ∧
      r.length = padlen b.length ∧
      ∀ a < padlen b.length, r.getD a 0 =
        (b ++ List.replicate (padlen b.length - b.length) 0x00).getD (4 * (a / 4) + (3 - a % 4)) 0) ∧
    (s.cfg.dmax < padlen b.length → exec (.xform b) s = .next { s with rsp := some [0x03, 0x00, 0x00] })

/-- 41_transform.md R82, laws 1 to 6 of `T`. -/
def Obligations.TransformLaws : Prop :=
  (∀ b : Bytes, (transform b).length = padlen b.length) ∧
  (∀ b : Bytes, b.length % 4 = 0 → transform (transform b) = b) ∧
  (∀ b : Bytes, transform (transform b) = pad0 b ∧ (transform (transform b) = b ↔ b.length % 4 = 0) ∧
    transform (transform (transform b)) = transform b) ∧
  (∀ b : Bytes, transform (pad0 b) = transform b) ∧
  (∀ r : Bytes, r.length % 4 = 0 → ∃ b, b.length = r.length ∧ transform b = r ∧
    ∀ c, c.length = r.length → transform c = r → c = b) ∧
  (∀ b c : Bytes, b.length % 4 = 0 → transform (b ++ c) = transform b ++ transform c)

/-- 41_transform.md R83: on little-endian words `T` is `bswap32` of each, which is its own inverse and
gives the big-endian reading. -/
def Obligations.TransformIsBswapOnWords : Prop :=
  (∀ c : Bytes, c.length % 4 = 0 → wordsLe (transform c) = (wordsLe c).map bswap32 ∧
    wordsLe (transform c) = wordsBe c) ∧
  (∀ w : Word, bswap32 (bswap32 w) = w) ∧
  (∀ (w : Word) (j : Fin 4), (bswap32 w).extractLsb' (8 * j.val) 8 = w.extractLsb' (8 * (3 - j.val)) 8) ∧
  bswap32 0x04030201 = 0x01020304 ∧ bswap32 0x00000005 = 0x05000000

/-! ## The cipher -/

/-- 42_cipher.md R92: the number of rounds, with the initial `SUM` of decryption. -/
def Obligations.RoundCounts : Prop :=
  (∀ n ≥ 2, rounds n = 6 + 52 / n) ∧
  rounds 2 = 32 ∧ rounds 3 = 23 ∧ rounds 4 = 19 ∧ rounds 5 = 16 ∧ rounds 6 = 14 ∧ rounds 7 = 13 ∧ rounds 8 = 12 ∧
  (∀ n, 9 ≤ n → n ≤ 10 → rounds n = 11) ∧ (∀ n, 11 ≤ n → n ≤ 13 → rounds n = 10) ∧
  (∀ n, 14 ≤ n → n ≤ 17 → rounds n = 9) ∧ (∀ n, 18 ≤ n → n ≤ 26 → rounds n = 8) ∧
  (∀ n, 27 ≤ n → n ≤ 52 → rounds n = 7) ∧ (∀ n ≥ 53, rounds n = 6) ∧
  (∀ v : List Word, (decStart v 2).sum = 0xC6EF3720 ∧ (decStart v 3).sum = 0x36FBEF9F ∧
    (decStart v 4).sum = 0xBE1E08BB ∧ (decStart v 5).sum = 0xE3779B90 ∧ (decStart v 6).sum = 0xA708A81E ∧
    (decStart v 7).sum = 0x08D12E65 ∧ (decStart v 8).sum = 0x6A99B4AC ∧
    (∀ n, 9 ≤ n → n ≤ 10 → (decStart v n).sum = 0xCC623AF3) ∧
    (∀ n, 11 ≤ n → n ≤ 13 → (decStart v n).sum = 0x2E2AC13A) ∧
    (∀ n, 14 ≤ n → n ≤ 17 → (decStart v n).sum = 0x8FF34781) ∧
    (∀ n, 18 ≤ n → n ≤ 26 → (decStart v n).sum = 0xF1BBCDC8) ∧
    (∀ n, 27 ≤ n → n ≤ 52 → (decStart v n).sum = 0x5384540F) ∧
    (∀ n ≥ 53, (decStart v n).sum = 0xB54CDA56))

/-- 42_cipher.md R91: `SUM` is r times `DELTA` after r rounds of encryption, and rounds(N) - r times
`DELTA` after r rounds of decryption. -/
def Obligations.SumRunsThroughMultiplesOfDelta : Prop :=
  delta = 0x9E3779B9 ∧
  (∀ (k : KeyWords) (v : List Word) (n r : Nat),
    (encRounds k n r (encStart v n)).sum = BitVec.ofNat 32 r * delta) ∧
  (∀ (k : KeyWords) (v : List Word) (n r : Nat), r ≤ rounds n →
    (decRounds k n r (decStart v n)).sum = BitVec.ofNat 32 (rounds n - r) * delta) ∧
  BitVec.ofNat 32 1 * delta = 0x9E3779B9 ∧ BitVec.ofNat 32 2 * delta = 0x3C6EF372 ∧
  BitVec.ofNat 32 3 * delta = 0xDAA66D2B ∧ BitVec.ofNat 32 4 * delta = 0x78DDE6E4 ∧
  BitVec.ofNat 32 5 * delta = 0x1715609D ∧ BitVec.ofNat 32 6 * delta = 0xB54CDA56

/-- 42_cipher.md R93: the mixing function, its key index `(p & 3) ^ e`, and the worked evaluation. -/
def Obligations.MixingFunction : Prop :=
  (∀ (sum y z : Word) (p : Nat) (e : BitVec 2) (k : KeyWords),
    mx sum y z p e k = (((z >>> 5) ^^^ (y <<< 2)) + ((y >>> 3) ^^^ (z <<< 4))) ^^^
      ((sum ^^^ y) + (k.toList.getD ((p &&& 3) ^^^ e.toNat) 0 ^^^ z))) ∧
  (∀ (p : Nat) (e : BitVec 2), (p &&& 3) ^^^ e.toNat < 4) ∧
  mx 0x9E3779B9 0x12345678 0x9ABCDEF0 1 2 #v[0x08040201, 0x80402010, 0xF8FCFEFF, 0x80C0E0F0] = 0x53EF4927

/-- 42_cipher.md R94: encryption is rounds(N) rounds, round r with `SUM` = r times `DELTA` and `E` of it,
each of which adds `MX` of the neighbours the rule names to every word; N ≥ 2. -/
def Obligations.EncryptionIsItsRounds : Prop :=
  ∀ (v : List Word) (n : Nat) (k : KeyWords), 2 ≤ n → v.length = n →
    ∃ w : Nat → List Word, w 0 = v ∧ bteaEnc v n k = w (rounds n) ∧
      ∀ r < rounds n, EncRoundRel k n (BitVec.ofNat 32 (r + 1) * delta) (w r) (w (r + 1))

/-- 42_cipher.md R95: decryption is rounds(N) rounds with `SUM` descending from rounds(N) times `DELTA`,
each of which subtracts `MX` of the neighbours the rule names from every word; after the last round
`SUM` is 0; N ≥ 2. -/
def Obligations.DecryptionIsItsRounds : Prop :=
  ∀ (v : List Word) (n : Nat) (k : KeyWords), 2 ≤ n → v.length = n →
    (∃ w : Nat → List Word, w 0 = v ∧ bteaDec v n k = w (rounds n) ∧
      ∀ r < rounds n, DecRoundRel k n (BitVec.ofNat 32 (rounds n - r) * delta) (w r) (w (r + 1))) ∧
    (decRounds k n (rounds n) (decStart v n)).sum = 0

/-- 42_cipher.md R101: encryption and decryption of a word array are inverse, both ways, for every
array of N ≥ 2 words and every key; so they are on aligned byte sequences of at least 8 bytes. -/
def Obligations.CipherDirectionsAreInverse : Prop :=
  (∀ (v : List Word) (n : Nat) (k : KeyWords), 2 ≤ n → v.length = n →
    bteaDec (bteaEnc v n k) n k = v ∧ bteaEnc (bteaDec v n k) n k = v) ∧
  (∀ b key : Bytes, b.length % 4 = 0 → 8 ≤ b.length →
    cipherDecrypt (cipherEncrypt b key) key = b ∧ cipherEncrypt (cipherDecrypt b key) key = b)

/-- 42_cipher.md R97 with R96, R99, R100: `CENC`, opcode 0x04, answers the encrypted word array of its payload, of the
same length, and faults as the rule says; it changes nothing else. -/
def Obligations.CencAnswersTheCiphertext : Prop :=
  ∀ (s : State) (b : Bytes),
    (encode (.cenc b)).head? = some 0x04 ∧
    (s.key = none → exec (.cenc b) s = .next { s with rsp := some [0x01, 0x00, 0x00] }) ∧
    (∀ k, s.key = some k → b.length % 4 ≠ 0 ∨ b.length < 8 ∨ s.cfg.dmax < b.length →
      exec (.cenc b) s = .next { s with rsp := some [0x03, 0x00, 0x00] }) ∧
    (∀ k, s.key = some k → b.length % 4 = 0 → 8 ≤ b.length → b.length ≤ s.cfg.dmax → ∃ c : Bytes,
      exec (.cenc b) s = .next { s with rsp := some (Response.frame { status := .ok, payload := c }) } ∧
      c = bytesLe (bteaEnc (wordsLe b) (b.length / 4) (keywords k)) ∧ c.length = b.length) ∧
    (8 ≤ s.cfg.dmax → s.key = some (List.replicate 16 0x00) → exec (.cenc (List.replicate 8 0x00)) s =
      .next { s with rsp := some [0x00, 0x08, 0x00, 0xAB, 0x04, 0x37, 0x05, 0x80, 0x8C, 0x5D, 0x57] })

/-- 42_cipher.md R98 with R96, R99, R100: `CDEC`, opcode 0x05, answers the decrypted word array of its payload, of the
same length, and faults as the rule says; it changes nothing else. -/
def Obligations.CdecAnswersThePlaintext : Prop :=
  ∀ (s : State) (b : Bytes),
    (encode (.cdec b)).head? = some 0x05 ∧
    (s.key = none → exec (.cdec b) s = .next { s with rsp := some [0x01, 0x00, 0x00] }) ∧
    (∀ k, s.key = some k → b.length % 4 ≠ 0 ∨ b.length < 8 ∨ s.cfg.dmax < b.length →
      exec (.cdec b) s = .next { s with rsp := some [0x03, 0x00, 0x00] }) ∧
    (∀ k, s.key = some k → b.length % 4 = 0 → 8 ≤ b.length → b.length ≤ s.cfg.dmax → ∃ c : Bytes,
      exec (.cdec b) s = .next { s with rsp := some (Response.frame { status := .ok, payload := c }) } ∧
      c = bytesLe (bteaDec (wordsLe b) (b.length / 4) (keywords k)) ∧ c.length = b.length) ∧
    (8 ≤ s.cfg.dmax → s.key = some (List.replicate 16 0x00) →
      exec (.cdec [0xAB, 0x04, 0x37, 0x05, 0x80, 0x8C, 0x5D, 0x57]) s =
      .next { s with rsp := some [0x00, 0x08, 0x00, 0x00, 0x00, 0x00, 0x00, 0x00, 0x00, 0x00, 0x00] })

/-! ## The envelope -/

/-- 43_envelope.md R122, R120: `ENC`, opcode 0x06, answers T(cipher_encrypt(T(IN))), of padlen(LEN) bytes, and faults
as the rule says; it changes nothing else. -/
def Obligations.EncAnswersTheEnvelope : Prop :=
  ∀ (s : State) (b : Bytes),
    (encode (.enc b)).head? = some 0x06 ∧
    (s.key = none → exec (.enc b) s = .next { s with rsp := some [0x01, 0x00, 0x00] }) ∧
    (∀ k, s.key = some k → padlen b.length < 8 ∨ s.cfg.dmax < padlen b.length →
      exec (.enc b) s = .next { s with rsp := some [0x03, 0x00, 0x00] }) ∧
    (∀ k, s.key = some k → 8 ≤ padlen b.length → padlen b.length ≤ s.cfg.dmax → ∃ c : Bytes,
      exec (.enc b) s = .next { s with rsp := some (Response.frame { status := .ok, payload := c }) } ∧
      c = transform (bytesLe (bteaEnc (wordsLe (transform b)) (padlen b.length / 4) (keywords k))) ∧
      c.length = padlen b.length) ∧
    (8 ≤ s.cfg.dmax →
      s.key = some [0x00, 0x01, 0x02, 0x03, 0x04, 0x05, 0x06, 0x07, 0x08, 0x09, 0x0A, 0x0B, 0x0C, 0x0D, 0x0E, 0x0F] →
      exec (.enc [0x2A, 0x2C, 0x00, 0x00, 0x00, 0x00, 0x00, 0x00]) s =
      .next { s with rsp := some [0x00, 0x08, 0x00, 0x35, 0xC4, 0xB1, 0x30, 0x14, 0xAF, 0x9C, 0xEE] })

/-- 43_envelope.md R123, R121: `DEC`, opcode 0x07, answers T(cipher_decrypt(T(IN))), of padlen(LEN) bytes, for every
payload of legal length (70_reset_and_hazards.md R176), and faults as the rule says; it changes
nothing else. -/
def Obligations.DecAnswersTheOpenedEnvelope : Prop :=
  ∀ (s : State) (b : Bytes),
    (encode (.dec b)).head? = some 0x07 ∧
    (s.key = none → exec (.dec b) s = .next { s with rsp := some [0x01, 0x00, 0x00] }) ∧
    (∀ k, s.key = some k → padlen b.length < 8 ∨ s.cfg.dmax < padlen b.length →
      exec (.dec b) s = .next { s with rsp := some [0x03, 0x00, 0x00] }) ∧
    (∀ k, s.key = some k → 8 ≤ padlen b.length → padlen b.length ≤ s.cfg.dmax → ∃ c : Bytes,
      exec (.dec b) s = .next { s with rsp := some (Response.frame { status := .ok, payload := c }) } ∧
      c = transform (bytesLe (bteaDec (wordsLe (transform b)) (padlen b.length / 4) (keywords k))) ∧
      c.length = padlen b.length) ∧
    (8 ≤ s.cfg.dmax →
      s.key = some [0x00, 0x01, 0x02, 0x03, 0x04, 0x05, 0x06, 0x07, 0x08, 0x09, 0x0A, 0x0B, 0x0C, 0x0D, 0x0E, 0x0F] →
      exec (.dec [0x35, 0xC4, 0xB1, 0x30, 0x14, 0xAF, 0x9C, 0xEE]) s =
      .next { s with rsp := some [0x00, 0x08, 0x00, 0x2A, 0x2C, 0x00, 0x00, 0x00, 0x00, 0x00, 0x00] })

/-- 43_envelope.md R124: the envelope is XXTEA on the padded data read as big-endian words and written
back big-endian, the key packed little-endian. -/
def Obligations.EnvelopeIsBigEndianXxtea : Prop :=
  ∀ b key : Bytes, 8 ≤ padlen b.length →
    encrypt b key = bytesBe (bteaEnc (wordsBe (pad0 b)) (padlen b.length / 4) (keywords key)) ∧
    decrypt b key = bytesBe (bteaDec (wordsBe (pad0 b)) (padlen b.length / 4) (keywords key))

/-- 43_envelope.md R125 at command level: with a key set, what `ENC` answers to an aligned payload of
legal length `DEC` answers with that payload, and the other way round, in every later state with the
same key and parameters. -/
def Obligations.EnvelopeRoundTrip : Prop :=
  ∀ (s t : State) (k b : Bytes), s.key = some k → t.key = some k → t.cfg = s.cfg →
    b.length % 4 = 0 → 8 ≤ b.length → b.length ≤ s.cfg.dmax →
    (∃ c, exec (.enc b) s = .next { s with rsp := some (Response.frame { status := .ok, payload := c }) } ∧
      exec (.dec c) t = .next { t with rsp := some (Response.frame { status := .ok, payload := b }) }) ∧
    (∃ c, exec (.dec b) s = .next { s with rsp := some (Response.frame { status := .ok, payload := c }) } ∧
      exec (.enc c) t = .next { t with rsp := some (Response.frame { status := .ok, payload := b }) })

/-- 43_envelope.md R126: unaligned input of at least 5 bytes is encrypted as its zero-padded form, which
is what decryption gives back. -/
def Obligations.UnalignedEnvelopeReturnsPaddedInput : Prop :=
  ∀ b key : Bytes, 5 ≤ b.length →
    encrypt b key = encrypt (pad0 b) key ∧ decrypt (encrypt b key) key = pad0 b ∧
    (encrypt b key).length = padlen b.length

/-- 43_envelope.md R128: with a key set and 5 ≤ LEN ≤ DMAX, `ENC` answers what `XFORM`, `CENC`, `XFORM`
answer in turn, likewise `DEC` with `CDEC`; for LEN ≤ 4 `ENC` faults at once, the sequence at `CENC`. -/
def Obligations.EnvelopeIsXformCipherXform : Prop :=
  ∀ (s : State) (k b : Bytes), s.cfg.Legal → s.key = some k →
    (5 ≤ b.length → b.length ≤ s.cfg.dmax →
      (∃ r1 r2 r3 : Bytes,
        exec (.xform b) s = .next { s with rsp := some (Response.frame { status := .ok, payload := r1 }) } ∧
        exec (.cenc r1) s = .next { s with rsp := some (Response.frame { status := .ok, payload := r2 }) } ∧
        exec (.xform r2) s = .next { s with rsp := some (Response.frame { status := .ok, payload := r3 }) } ∧
        exec (.enc b) s = .next { s with rsp := some (Response.frame { status := .ok, payload := r3 }) }) ∧
      (∃ r1 r2 r3 : Bytes,
        exec (.xform b) s = .next { s with rsp := some (Response.frame { status := .ok, payload := r1 }) } ∧
        exec (.cdec r1) s = .next { s with rsp := some (Response.frame { status := .ok, payload := r2 }) } ∧
        exec (.xform r2) s = .next { s with rsp := some (Response.frame { status := .ok, payload := r3 }) } ∧
        exec (.dec b) s = .next { s with rsp := some (Response.frame { status := .ok, payload := r3 }) })) ∧
    (b.length ≤ 4 → exec (.enc b) s = .next { s with rsp := some [0x03, 0x00, 0x00] } ∧
      ∃ r1 : Bytes,
        exec (.xform b) s = .next { s with rsp := some (Response.frame { status := .ok, payload := r1 }) } ∧
        exec (.cenc r1) s = .next { s with rsp := some [0x03, 0x00, 0x00] })

/-- 43_envelope.md R127: dropping either transform of the envelope, or both, changes the result
(95_test_vectors.md V-X6 to V-X8). -/
def Obligations.BothTransformsMatter : Prop :=
  ∃ b key : Bytes, 8 ≤ b.length ∧ b.length % 4 = 0 ∧
    encrypt b key ≠ cipherEncrypt (transform b) key ∧
    encrypt b key ≠ transform (cipherEncrypt b key) ∧
    encrypt b key ≠ cipherEncrypt b key

/-! ## Order of commands, several hosts -/

/-- 20_memory.md R39: running every event of the port, in acceptance order, leaves the key register and
delivers the responses that `outcome` computes from the spec's tables: each command sees the key as
left by the latest earlier successful `SETKEY`, or by reset. That a reset leaves the later events and
the responses already delivered in place is the model's choice: log entry 6. -/
def Obligations.AcceptanceOrderDecidesEverything : Prop :=
  ∀ s : State, s.rsp = none →
    core.run s.port.length s = .next { s with
      key := (outcome s.cfg s.key s.port).1, port := []
      delivered := s.delivered ++ (outcome s.cfg s.key s.port).2 }

/-- 20_memory.md R39 (c): any two frames that are no `SETKEY`, accepted in either order, get the same
two responses and leave the same key register. -/
def Obligations.CommandsOtherThanSetkeyCommute : Prop :=
  ∀ (s : State) (h g : Nat) (e f : Bytes) (es : List Event),
    (∀ p, decodeFrame e ≠ .command (.setkey p)) → (∀ p, decodeFrame f ≠ .command (.setkey p)) →
    ∃ re rf : Bytes,
      core.run 2 { s with port := .command h e :: .command g f :: es } = .next { s with
        port := es, rsp := none
        delivered := s.delivered ++ [{ host := h, frame := re }, { host := g, frame := rf }] } ∧
      core.run 2 { s with port := .command g f :: .command h e :: es } = .next { s with
        port := es, rsp := none
        delivered := s.delivered ++ [{ host := g, frame := rf }, { host := h, frame := re }] }

/-- 20_memory.md R39 (a), 40_key.md R73: a key that is set stays in force through any sequence of events
that holds no reset and no frame of a `SETKEY`, from whatever hosts. -/
def Obligations.KeyStaysInForce : Prop :=
  ∀ (s : State) (k : Bytes), s.key = some k →
    (∀ e ∈ s.port, ∃ h f, e = .command h f ∧ ∀ p, decodeFrame f ≠ .command (.setkey p)) →
    ∀ n, ∃ t, core.run n s = .next t ∧ t.key = some k

/-- 20_memory.md R40, 95_test_vectors.md P6: host a runs `SETKEY` kA then `ENC` b, host g runs `SETKEY`
kB. Whatever interleaving of the two the port holds, a's `SETKEY` is answered `OK` and its `ENC` with
the envelope under one of the two keys, never `KEY_NOT_SET`, never a mixture; the end key goes with
it as in the table of P6; and each row of that table has an interleaving. -/
def Obligations.TwoHostsShareOneKey : Prop :=
  ∀ (s : State) (a g : Nat) (kA kB b : Bytes), Inv s → a ≠ g →
    1 ≤ kA.length → kA.length ≤ s.cfg.kmax → 1 ≤ kB.length → kB.length ≤ s.cfg.kmax →
    8 ≤ padlen b.length → padlen b.length ≤ s.cfg.dmax → s.delivered = [] →
    let ends (es : List Event) (key res : Bytes) : Prop := ∃ t,
      core.run 3 { s with port := es } = .next t ∧ t.key = some key ∧
      responsesTo a t.delivered =
        [[0x00, 0x00, 0x00], Response.frame { status := .ok, payload := encrypt b res }]
    (∀ es : List Event, (∀ e ∈ es, ∃ f, e = .command a f ∨ e = .command g f) →
      commandsOf a es = [encode (.setkey kA), encode (.enc b)] → commandsOf g es = [encode (.setkey kB)] →
      ends es kB kA ∨ ends es kB kB ∨ ends es kA kA) ∧
    ends [.command a (encode (.setkey kA)), .command a (encode (.enc b)), .command g (encode (.setkey kB))] kB kA ∧
    ends [.command a (encode (.setkey kA)), .command g (encode (.setkey kB)), .command a (encode (.enc b))] kB kB ∧
    ends [.command g (encode (.setkey kB)), .command a (encode (.setkey kA)), .command a (encode (.enc b))] kA kA
end

