-- ==== Sys2Proof/Laws/Operands.lean ====
section
/-! SUPPORT. Padding, packing and the transform: each function's lengths and its form on the first
word of a sequence, from which everything else follows by induction on words. -/

namespace Sys2Proof.Machine

theorem padlen_mod (l : Nat) : padlen l % 4 = 0 := by unfold padlen; split <;> omega
theorem le_padlen (l : Nat) : l ≤ padlen l := by unfold padlen; split <;> omega
theorem padlen_lt (l : Nat) : padlen l < l + 4 := by unfold padlen; split <;> omega
theorem padlen_of_aligned {l : Nat} (h : l % 4 = 0) : padlen l = l := by simp [padlen, h]
theorem padlen_padlen (l : Nat) : padlen (padlen l) = padlen l := padlen_of_aligned (padlen_mod l)

@[simp] theorem pad0_length (b : Bytes) : (pad0 b).length = padlen b.length := by
  have := le_padlen b.length
  simp [pad0]; omega

theorem pad0_of_aligned {b : Bytes} (h : b.length % 4 = 0) : pad0 b = b := by
  simp [pad0, padlen_of_aligned h]

theorem pad0_pad0 (b : Bytes) : pad0 (pad0 b) = pad0 b :=
  pad0_of_aligned (by rw [pad0_length]; exact padlen_mod _)

/-- An aligned sequence is empty or begins with a whole word. -/
theorem aligned_cases {b : Bytes} (h : b.length % 4 = 0) :
    b = [] ∨ ∃ b0 b1 b2 b3 c, b = b0 :: b1 :: b2 :: b3 :: c ∧ c.length % 4 = 0 := by
  match b, h with
  | [], _ => exact .inl rfl
  | b0 :: b1 :: b2 :: b3 :: c, h =>
    refine .inr ⟨b0, b1, b2, b3, c, rfl, ?_⟩
    simp at h; omega

theorem aligned_cons {b0 b1 b2 b3 : Byte} {c : Bytes} (h : c.length % 4 = 0) :
    (b0 :: b1 :: b2 :: b3 :: c).length % 4 = 0 := by simp; omega

/-- Induction on the words of an aligned sequence: `induction b, h using aligned_induction`. -/
theorem aligned_induction {motive : (b : Bytes) → b.length % 4 = 0 → Prop} (nil : motive [] rfl)
    (word : ∀ b0 b1 b2 b3 c (hc : c.length % 4 = 0), motive c hc →
      motive (b0 :: b1 :: b2 :: b3 :: c) (aligned_cons hc)) :
    ∀ (b : Bytes) (h : b.length % 4 = 0), motive b h
  | [], _ => nil
  | b0 :: b1 :: b2 :: b3 :: c, h =>
    have hc : c.length % 4 = 0 := by simp at h; omega
    word b0 b1 b2 b3 c hc (aligned_induction nil word c hc)

@[simp] theorem memRead1_cons_succ (x : Byte) (b : Bytes) (a : Nat) :
    memRead1 (x :: b) (a + 1) = memRead1 b a := by simp [memRead1]

@[simp] theorem memRead1_cons_zero (x : Byte) (b : Bytes) : memRead1 (x :: b) 0 = x := rfl

/-- The value of a packed word. -/
theorem packLe_toNat (b0 b1 b2 b3 : Byte) : (packLe b0 b1 b2 b3).toNat =
    b0.toNat + 2 ^ 8 * b1.toNat + 2 ^ 16 * b2.toNat + 2 ^ 24 * b3.toNat := by
  have h : packLe b0 b1 b2 b3 = b3 ++ (b2 ++ (b1 ++ b0)) := by
    apply BitVec.eq_of_getLsbD_eq
    intro i hi
    have := BitVec.getLsbD_of_ge b0 i
    have := BitVec.getLsbD_of_ge b1 (i - 8)
    have := BitVec.getLsbD_of_ge b2 (i - 16)
    have := BitVec.getLsbD_of_ge b3 (i - 24)
    simp only [packLe, BitVec.getLsbD_or, BitVec.getLsbD_shiftLeft, BitVec.getLsbD_setWidth, BitVec.getLsbD_append]
    grind
  have app : ∀ {m : Nat} (x : Byte) (y : BitVec m), (x ++ y).toNat = x.toNat * 2 ^ m + y.toNat := by
    intro m x y
    rw [BitVec.toNat_append, ← Nat.shiftLeft_add_eq_or_of_lt y.isLt, Nat.shiftLeft_eq]
  rw [h, app, app, app]
  omega

theorem unpackLe_packLe (b0 b1 b2 b3 : Byte) : unpackLe (packLe b0 b1 b2 b3) = [b0, b1, b2, b3] := by
  have h := packLe_toNat b0 b1 b2 b3
  have := b0.isLt
  have := b1.isLt
  have := b2.isLt
  have := b3.isLt
  simp only [unpackLe, List.cons.injEq, and_true]
  refine ⟨?_, ?_, ?_, ?_⟩ <;> apply BitVec.eq_of_toNat_eq <;>
    simp only [BitVec.extractLsb'_toNat, h, Nat.shiftRight_eq_div_pow] <;> omega

theorem packLe_lanes (w : Word) :
    packLe (w.extractLsb' 0 8) (w.extractLsb' 8 8) (w.extractLsb' 16 8) (w.extractLsb' 24 8) = w := by
  apply BitVec.eq_of_toNat_eq
  have := w.isLt
  rw [packLe_toNat]
  simp only [BitVec.extractLsb'_toNat, Nat.shiftRight_eq_div_pow]
  omega

/-- The zero-extended key, read without a case split. -/
theorem keyByte_eq_getD (key : Bytes) (j : Nat) : keyByte key j = key.getD j 0 := by
  unfold keyByte memRead1
  split
  · rfl
  · simp [List.getElem?_eq_none (Nat.le_of_not_lt ‹_›)]

theorem memRead4_word (b0 b1 b2 b3 : Byte) (c : Bytes) (i : Nat) :
    memRead4 (b0 :: b1 :: b2 :: b3 :: c) (4 * (i + 1)) = memRead4 c (4 * i) := by
  have h : 4 * (i + 1) = 4 * i + 1 + 1 + 1 + 1 := by omega
  have h1 : 4 * i + 1 + 1 + 1 + 1 + 1 = 4 * i + 1 + 1 + 1 + 1 + 1 := rfl
  simp only [memRead4, h]
  rw [show 4 * i + 1 + 1 + 1 + 1 + 2 = 4 * i + 2 + 1 + 1 + 1 + 1 by omega,
    show 4 * i + 1 + 1 + 1 + 1 + 3 = 4 * i + 3 + 1 + 1 + 1 + 1 by omega]
  simp

@[simp] theorem wordsLe_nil : wordsLe [] = [] := rfl

theorem wordsLe_word (b0 b1 b2 b3 : Byte) (c : Bytes) :
    wordsLe (b0 :: b1 :: b2 :: b3 :: c) = packLe b0 b1 b2 b3 :: wordsLe c := by
  have h : (b0 :: b1 :: b2 :: b3 :: c).length / 4 = c.length / 4 + 1 := by simp; omega
  simp only [wordsLe, h, List.range_succ_eq_map, List.map_cons, List.map_map, Function.comp_def,
    Nat.succ_eq_add_one, memRead4_word]
  rfl

@[simp] theorem wordsLe_length (b : Bytes) : (wordsLe b).length = b.length / 4 := by simp [wordsLe]

@[simp] theorem bytesLe_nil : bytesLe [] = [] := rfl

theorem bytesLe_cons (w : Word) (v : List Word) : bytesLe (w :: v) = unpackLe w ++ bytesLe v := rfl

theorem bytesLe_length (v : List Word) : (bytesLe v).length = 4 * v.length := by
  induction v with
  | nil => rfl
  | cons w v ih => rw [bytesLe_cons]; simp [unpackLe, ih]; omega

@[simp] theorem transform_nil : transform [] = [] := rfl

/-- The transform of a sequence that begins with a whole word. -/
theorem transform_word (b0 b1 b2 b3 : Byte) (c : Bytes) :
    transform (b0 :: b1 :: b2 :: b3 :: c) = b3 :: b2 :: b1 :: b0 :: transform c := by
  have hp : pad0 (b0 :: b1 :: b2 :: b3 :: c) = b0 :: b1 :: b2 :: b3 :: pad0 c := by
    have h : padlen (c.length + 4) = padlen c.length + 4 := by unfold padlen; split <;> split <;> omega
    simp [pad0, h]
  have hl : (b0 :: b1 :: b2 :: b3 :: pad0 c).length / 4 = (pad0 c).length / 4 + 1 := by
    simp; omega
  have hm : ∀ i j, memRead1 (b0 :: b1 :: b2 :: b3 :: pad0 c) (4 * (i + 1) + j) = memRead1 (pad0 c) (4 * i + j) := by
    intro i j
    rw [show 4 * (i + 1) + j = 4 * i + j + 1 + 1 + 1 + 1 by omega]
    simp
  have h0 := fun i => hm i 0
  simp only [Nat.add_zero] at h0
  simp only [transform, hp, hl, List.range_succ_eq_map, List.flatMap_cons, List.flatMap_map,
    Nat.succ_eq_add_one, hm, h0]
  simp [memRead1]

/-- The transform depends on the padded input only. -/
theorem transform_pad0 (b : Bytes) : transform (pad0 b) = transform b := by
  simp only [transform, pad0_pad0]

theorem transform_length (b : Bytes) : (transform b).length = padlen b.length := by
  have := padlen_mod b.length
  simp [transform, List.length_flatMap]; omega

theorem transform_aligned (b : Bytes) : (transform b).length % 4 = 0 := by
  rw [transform_length]; exact padlen_mod _

end Sys2Proof.Machine
end

