-- ==== Sys2Proof/Laws/Cipher.lean ====
section
/-! SUPPORT. The cipher's word array: reads after writes, and no step changes its length. -/

namespace Sys2Proof.Machine

theorem readV_set_eq {v : List Word} {p : Nat} (h : p < v.length) (x : Word) :
    readV (v.set p x) p = x := by simp [readV, h]

theorem readV_set_ne {v : List Word} {p q : Nat} (h : p ≠ q) (x : Word) :
    readV (v.set p x) q = readV v q := by
  simp [readV, List.getElem?_set_ne h]

/-- Word arrays of one length that read alike are equal. -/
theorem ext_readV {v v' : List Word} (hl : v.length = v'.length)
    (h : ∀ p < v.length, readV v p = readV v' p) : v = v' := by
  refine List.ext_getElem hl fun p hp hp' => ?_
  simpa [readV, hp, hp'] using h p hp

@[simp] theorem encWord_length (k : KeyWords) (e : BitVec 2) (w : EncWork) (p : Nat) :
    (encWord k e w p).v.length = w.v.length := by simp [encWord]
@[simp] theorem encWord_sum (k : KeyWords) (e : BitVec 2) (w : EncWork) (p : Nat) :
    (encWord k e w p).sum = w.sum := rfl
@[simp] theorem encLast_length (k : KeyWords) (n : Nat) (e : BitVec 2) (w : EncWork) :
    (encLast k n e w).v.length = w.v.length := by simp [encLast]
@[simp] theorem encLast_sum (k : KeyWords) (n : Nat) (e : BitVec 2) (w : EncWork) :
    (encLast k n e w).sum = w.sum := rfl
@[simp] theorem decWord_length (k : KeyWords) (e : BitVec 2) (w : DecWork) (p : Nat) :
    (decWord k e w p).v.length = w.v.length := by simp [decWord]
@[simp] theorem decWord_sum (k : KeyWords) (e : BitVec 2) (w : DecWork) (p : Nat) :
    (decWord k e w p).sum = w.sum := rfl
@[simp] theorem decLast_length (k : KeyWords) (n : Nat) (e : BitVec 2) (w : DecWork) :
    (decLast k n e w).v.length = w.v.length := by simp [decLast]
@[simp] theorem decLast_sum (k : KeyWords) (n : Nat) (e : BitVec 2) (w : DecWork) :
    (decLast k n e w).sum = w.sum := rfl

/-- The word updates of an encryption round keep the array's length and `SUM`. -/
theorem foldl_encWord_frame (k : KeyWords) (e : BitVec 2) (ps : List Nat) (w : EncWork) :
    (ps.foldl (encWord k e) w).v.length = w.v.length ∧ (ps.foldl (encWord k e) w).sum = w.sum := by
  induction ps generalizing w with
  | nil => exact ⟨rfl, rfl⟩
  | cons p ps ih => simpa using ih (encWord k e w p)

/-- The word updates of a decryption round keep the array's length and `SUM`. -/
theorem foldl_decWord_frame (k : KeyWords) (e : BitVec 2) (ps : List Nat) (w : DecWork) :
    (ps.foldl (decWord k e) w).v.length = w.v.length ∧ (ps.foldl (decWord k e) w).sum = w.sum := by
  induction ps generalizing w with
  | nil => exact ⟨rfl, rfl⟩
  | cons p ps ih => simpa using ih (decWord k e w p)

theorem encRound_length (k : KeyWords) (n : Nat) (w : EncWork) :
    (encRound k n w).v.length = w.v.length := by
  simp [encRound, foldl_encWord_frame]
theorem encRound_sum (k : KeyWords) (n : Nat) (w : EncWork) :
    (encRound k n w).sum = w.sum + delta := by
  simp [encRound, foldl_encWord_frame]
theorem decRound_length (k : KeyWords) (n : Nat) (w : DecWork) :
    (decRound k n w).v.length = w.v.length := by
  simp [decRound, foldl_decWord_frame]
theorem decRound_sum (k : KeyWords) (n : Nat) (w : DecWork) :
    (decRound k n w).sum = w.sum - delta := by
  simp [decRound, foldl_decWord_frame]

theorem encRounds_length (k : KeyWords) (n q : Nat) (w : EncWork) :
    (encRounds k n q w).v.length = w.v.length := by
  induction q generalizing w with
  | zero => rfl
  | succ q ih => rw [encRounds, ih, encRound_length]

theorem decRounds_length (k : KeyWords) (n q : Nat) (w : DecWork) :
    (decRounds k n q w).v.length = w.v.length := by
  induction q generalizing w with
  | zero => rfl
  | succ q ih => rw [decRounds, ih, decRound_length]

@[simp] theorem bteaEnc_length (v : List Word) (n : Nat) (k : KeyWords) :
    (bteaEnc v n k).length = v.length := encRounds_length ..
@[simp] theorem bteaDec_length (v : List Word) (n : Nat) (k : KeyWords) :
    (bteaDec v n k).length = v.length := decRounds_length ..

/-- The last round of a sequence of rounds, taken off the end. -/
theorem encRounds_succ' (k : KeyWords) (n q : Nat) (w : EncWork) :
    encRounds k n (q + 1) w = encRound k n (encRounds k n q w) := by
  induction q generalizing w with
  | zero => rfl
  | succ q ih => rw [encRounds, ih, encRounds]

/-- The last round of a sequence of rounds, taken off the end. -/
theorem decRounds_succ' (k : KeyWords) (n q : Nat) (w : DecWork) :
    decRounds k n (q + 1) w = decRound k n (decRounds k n q w) := by
  induction q generalizing w with
  | zero => rfl
  | succ q ih => rw [decRounds, ih, decRounds]

theorem cipherEncrypt_length (b key : Bytes) : (cipherEncrypt b key).length = 4 * (b.length / 4) := by
  simp [cipherEncrypt, bytesLe_length]
theorem cipherDecrypt_length (b key : Bytes) : (cipherDecrypt b key).length = 4 * (b.length / 4) := by
  simp [cipherDecrypt, bytesLe_length]

end Sys2Proof.Machine
end

