-- ==== Sys2Proof/Laws/Encoding.lean ====
section
/-! SUPPORT. The length field, the frames and the status codes. -/

namespace Sys2Proof

theorem lenField_toNat (lo hi : Byte) : (lenField lo hi).toNat = lo.toNat + 256 * hi.toNat := by
  have hlo := lo.isLt
  have hhi := hi.isLt
  have h1 : lo.toNat % 2 ^ 16 = lo.toNat := Nat.mod_eq_of_lt (by omega)
  have h2 : (hi.toNat % 2 ^ 16) <<< 8 % 2 ^ 16 = hi.toNat <<< 8 := by
    simp only [Nat.shiftLeft_eq]; omega
  rw [lenField, BitVec.toNat_or, BitVec.toNat_shiftLeft, BitVec.toNat_setWidth, BitVec.toNat_setWidth,
    h1, h2, Nat.or_comm, ← Nat.shiftLeft_add_eq_or_of_lt hlo, Nat.shiftLeft_eq]
  omega

theorem lenLo_toNat (n : Nat) : (lenLo n).toNat = n % 256 := by
  simp [lenLo]

theorem lenHi_toNat (n : Nat) : (lenHi n).toNat = n / 256 % 256 := by
  simp [lenHi, Nat.shiftRight_eq_div_pow]; omega

/-- A length below 2^16 survives its two bytes. -/
theorem lenField_of_len {n : Nat} (h : n ≤ 65535) : (lenField (lenLo n) (lenHi n)).toNat = n := by
  rw [lenField_toNat, lenLo_toNat, lenHi_toNat]; omega

/-- The two bytes of a length field are the bytes of its value. -/
theorem len_of_lenField (lo hi : Byte) :
    lenLo (lenField lo hi).toNat = lo ∧ lenHi (lenField lo hi).toNat = hi := by
  have := lo.isLt
  have := hi.isLt
  constructor <;> apply BitVec.eq_of_toNat_eq
  · rw [lenLo_toNat, lenField_toNat]; omega
  · rw [lenHi_toNat, lenField_toNat]; omega

theorem encode_length (i : Instr) : (encode i).length = 3 + i.payload.length := by
  simp [encode]; omega

/-- The opcode of a command selects that command. -/
theorem decodeOp_opcode (i : Instr) : decodeOp (opcode i) i.payload = .command i := by
  cases i <;> rfl

/-- All that `decodeOp` can answer with a command: the opcode and payload are the command's. -/
theorem decodeOp_command {opc : Byte} {b : Bytes} {i : Instr} (h : decodeOp opc b = .command i) :
    opcode i = opc ∧ i.payload = b := by
  unfold decodeOp at h
  split at h <;> cases h <;> exact ⟨BitVec.eq_of_toNat_eq (by simp_all [opcode]), rfl⟩

/-- When `decodeOp` answers with no command. -/
theorem decodeOp_illegal {opc : Byte} {b : Bytes} :
    decodeOp opc b = .illegalOp ↔ ¬ (1 ≤ opc.toNat ∧ opc.toNat ≤ 7) := by
  unfold decodeOp
  split <;> simp_all
  omega

theorem decodeOp_ne_badFrame {opc : Byte} {b : Bytes} : decodeOp opc b ≠ .badFrame := by
  unfold decodeOp; split <;> simp

namespace Machine

theorem Status.ofCode_code (st : Status) : Status.ofCode st.code = some st := by
  cases st <;> rfl

/-- A code that stands for a status is that status's code. -/
theorem Status.code_of_ofCode {c : Byte} {st : Status} (h : Status.ofCode c = some st) : st.code = c := by
  unfold Status.ofCode at h
  split at h <;> cases h <;> apply BitVec.eq_of_toNat_eq <;> simp_all [Status.code]

theorem Response.frame_length (r : Response) : r.frame.length = 3 + r.payload.length := by
  simp [Response.frame]; omega

end Machine

end Sys2Proof
end

