-- ==== Sys2Proof/Laws/State.lean ====
section
/-! SUPPORT. One lemma per field per update of State. -/

namespace Sys2Proof.Machine

variable (s : State) (r : Response) (k f : Bytes) (h : Nat)

@[simp] theorem State.resetOf_cfg (c : Config) : (State.resetOf c).cfg = c := rfl
@[simp] theorem State.resetOf_key (c : Config) : (State.resetOf c).key = none := rfl
@[simp] theorem State.resetOf_port (c : Config) : (State.resetOf c).port = [] := rfl
@[simp] theorem State.resetOf_rsp (c : Config) : (State.resetOf c).rsp = none := rfl
@[simp] theorem State.resetOf_delivered (c : Config) : (State.resetOf c).delivered = [] := rfl

@[simp] theorem State.putResponse_cfg : (s.putResponse r).cfg = s.cfg := rfl
@[simp] theorem State.putResponse_key : (s.putResponse r).key = s.key := rfl
@[simp] theorem State.putResponse_port : (s.putResponse r).port = s.port := rfl
@[simp] theorem State.putResponse_rsp : (s.putResponse r).rsp = some r.frame := rfl
@[simp] theorem State.putResponse_delivered : (s.putResponse r).delivered = s.delivered := rfl

@[simp] theorem State.setKey_cfg : (s.setKey k).cfg = s.cfg := rfl
@[simp] theorem State.setKey_key : (s.setKey k).key = some k := rfl
@[simp] theorem State.setKey_port : (s.setKey k).port = s.port := rfl
@[simp] theorem State.setKey_rsp : (s.setKey k).rsp = s.rsp := rfl
@[simp] theorem State.setKey_delivered : (s.setKey k).delivered = s.delivered := rfl

@[simp] theorem State.takeEvent_cfg : s.takeEvent.cfg = s.cfg := rfl
@[simp] theorem State.takeEvent_key : s.takeEvent.key = s.key := rfl
@[simp] theorem State.takeEvent_port : s.takeEvent.port = s.port.tail := rfl
@[simp] theorem State.takeEvent_rsp : s.takeEvent.rsp = s.rsp := rfl
@[simp] theorem State.takeEvent_delivered : s.takeEvent.delivered = s.delivered := rfl

@[simp] theorem State.resetEvent_cfg : s.resetEvent.cfg = s.cfg := rfl
@[simp] theorem State.resetEvent_key : s.resetEvent.key = none := rfl
@[simp] theorem State.resetEvent_port : s.resetEvent.port = s.port := rfl
@[simp] theorem State.resetEvent_rsp : s.resetEvent.rsp = none := rfl
@[simp] theorem State.resetEvent_delivered : s.resetEvent.delivered = s.delivered := rfl

theorem State.deliver_some (hf : s.rsp = some f) :
    s.deliver h = { s with rsp := none, delivered := s.delivered ++ [{ host := h, frame := f }] } := by
  simp [State.deliver, hf]

theorem State.deliver_none (hf : s.rsp = none) : s.deliver h = s := by
  simp [State.deliver, hf]

@[simp] theorem State.deliver_cfg : (s.deliver h).cfg = s.cfg := by
  unfold State.deliver; split <;> rfl
@[simp] theorem State.deliver_key : (s.deliver h).key = s.key := by
  unfold State.deliver; split <;> rfl
@[simp] theorem State.deliver_port : (s.deliver h).port = s.port := by
  unfold State.deliver; split <;> rfl
@[simp] theorem State.deliver_rsp : (s.deliver h).rsp = none := by
  unfold State.deliver; split <;> first | rfl | assumption

@[simp] theorem State.withFetchWord_port (nbits w : Nat) :
    (s.withFetchWord nbits w).port = .command 0 (tableFrame nbits w) :: s.port := rfl

theorem State.keyv_some (hk : s.key = some k) : s.keyv = true := by simp [State.keyv, hk]
theorem State.keyv_none (hk : s.key = none) : s.keyv = false := by simp [State.keyv, hk]
theorem State.klen_some (hk : s.key = some k) : s.klen = k.length := by simp [State.klen, hk]
theorem State.kbuf_some (hk : s.key = some k) : s.kbuf = k := by simp [State.kbuf, hk]

end Sys2Proof.Machine
end

