-- ==== Sys2Proof/Laws/Exec.lean ====
section
/-! SUPPORT. What executing a command can do, said once; and one step, event by event. -/

namespace Sys2Proof.Machine

theorem respondOk_eq (b : Bytes) (s : State) :
    respondOk b s = .next { s with rsp := some (Response.frame { status := .ok, payload := b }) } := rfl

/-- A response without payload is the 3-byte frame `ST 00 00`. -/
theorem emptyResponse_frame (st : Status) :
    Response.frame { status := st, payload := [] } = [st.code, 0, 0] := by
  have h : lenLo 0 = 0 ∧ lenHi 0 = 0 := by decide
  simp [Response.frame, h]

theorem raise_eq (st : Status) (s : State) :
    raise st s = .next { s with rsp := some [st.code, 0, 0] } := by
  simp [raise, State.putResponse, emptyResponse_frame]

theorem withKey_none {s : State} (h : s.key = none) (f : Bytes → Result) :
    withKey s f = raise .keyNotSet s := by simp [withKey, h]

theorem withKey_some {s : State} {k : Bytes} (h : s.key = some k) (f : Bytes → Result) :
    withKey s f = f k := by simp [withKey, h]

/-- What a command can do: it puts one response in the response port and changes nothing else,
or it is a `SETKEY` of legal length, which also writes the key register. -/
inductive Effect (i : Instr) (s : State) : Result → Prop where
  | ok (b : Bytes) : Effect i s (respondOk b s)
  | fault (st : Status) (h : st ≠ .ok) : Effect i s (raise st s)
  | setkey (k : Bytes) (hi : i = .setkey k) (h1 : 1 ≤ k.length) (h2 : k.length ≤ s.cfg.kmax) :
      Effect i s (respondOk [] (s.setKey k))

theorem withKey_effect {i : Instr} {s : State} {f : Bytes → Result}
    (h : ∀ k, s.key = some k → Effect i s (f k)) : Effect i s (withKey s f) := by
  cases hk : s.key with
  | none => rw [withKey_none hk]; exact .fault _ (by decide)
  | some k => rw [withKey_some hk]; exact h k hk

theorem exec_effect (i : Instr) (s : State) : Effect i s (exec i s) := by
  have cond : ∀ (p : Prop) [Decidable p] (b : Bytes),
      Effect i s (if p then respondOk b s else raise .badLength s) := by
    intro p _ b
    split
    · exact .ok b
    · exact .fault _ (by decide)
  have cond' : ∀ (p : Prop) [Decidable p] (b : Bytes),
      Effect i s (if p then raise .badLength s else respondOk b s) := by
    intro p _ b
    split
    · exact .fault _ (by decide)
    · exact .ok b
  cases i with
  | setkey p =>
    simp only [exec, execSetkey]
    split
    · exact .fault _ (by decide)
    · exact .setkey p rfl (by omega) (by omega)
  | getkey p => exact withKey_effect fun k _ => cond' _ k
  | xform p => exact cond' _ _
  | cenc p => exact withKey_effect fun k _ => cond _ _
  | cdec p => exact withKey_effect fun k _ => cond _ _
  | enc p => exact withKey_effect fun k _ => cond _ _
  | dec p => exact withKey_effect fun k _ => cond _ _

/-- What a frame can do: what its command can do, or a fault of decoding. -/
theorem runFrame_cases (f : Bytes) (s : State) :
    (∃ i, decodeFrame f = .command i ∧ runFrame f s = exec i s) ∨
    (decodeFrame f = .badFrame ∧ runFrame f s = raise .badFrame s) ∨
    (decodeFrame f = .illegalOp ∧ runFrame f s = raise .illegalOp s) := by
  unfold runFrame
  cases h : decodeFrame f with
  | command i => exact .inl ⟨i, rfl, rfl⟩
  | badFrame => exact .inr (.inl ⟨rfl, rfl⟩)
  | illegalOp => exact .inr (.inr ⟨rfl, rfl⟩)

theorem step_command {s : State} {h : Nat} {f : Bytes} {es : List Event}
    (hp : s.port = .command h f :: es) : step s = deliverTo h (runFrame f { s with port := es }) := by
  simp [step, hp, State.takeEvent]

@[simp] theorem deliverTo_next (h : Nat) (s : State) : deliverTo h (.next s) = .next (s.deliver h) := rfl

theorem deliverTo_respondOk (h : Nat) (b : Bytes) (s : State) :
    deliverTo h (respondOk b s) = .next { s with
      rsp := none
      delivered := s.delivered ++ [{ host := h, frame := Response.frame { status := .ok, payload := b } }] } := rfl

theorem deliverTo_raise (h : Nat) (st : Status) (s : State) :
    deliverTo h (raise st s) = .next { s with
      rsp := none
      delivered := s.delivered ++ [{ host := h, frame := [st.code, 0, 0] }] } := by
  rw [raise_eq]; rfl

end Sys2Proof.Machine
end

