-- ==== Sys2Proof/Laws/PerInstr.lean ====
section
/-! SUPPORT. Statements made per command. -/

namespace Sys2Proof.Laws

/-- The header of every command's frame: its opcode by 30_encoding.md R54, then LEN low byte first,
and the frame is 3 + LEN bytes long (R50, R52, R53). -/
def FrameHeader.Statement (i : Instr) : Prop :=
  (∃ b, encode i = opcode i :: lenLo b.length :: lenHi b.length :: b) ∧
    1 ≤ (opcode i).toNat ∧ (opcode i).toNat ≤ 7 ∧ (encode i).length = 3 + i.payload.length

theorem FrameHeader.setkey (b : Bytes) : FrameHeader.Statement (.setkey b) :=
  ⟨⟨b, rfl⟩, by simp [opcode], by simp [opcode], encode_length _⟩
theorem FrameHeader.getkey (b : Bytes) : FrameHeader.Statement (.getkey b) :=
  ⟨⟨b, rfl⟩, by simp [opcode], by simp [opcode], encode_length _⟩
theorem FrameHeader.xform (b : Bytes) : FrameHeader.Statement (.xform b) :=
  ⟨⟨b, rfl⟩, by simp [opcode], by simp [opcode], encode_length _⟩
theorem FrameHeader.cenc (b : Bytes) : FrameHeader.Statement (.cenc b) :=
  ⟨⟨b, rfl⟩, by simp [opcode], by simp [opcode], encode_length _⟩
theorem FrameHeader.cdec (b : Bytes) : FrameHeader.Statement (.cdec b) :=
  ⟨⟨b, rfl⟩, by simp [opcode], by simp [opcode], encode_length _⟩
theorem FrameHeader.enc (b : Bytes) : FrameHeader.Statement (.enc b) :=
  ⟨⟨b, rfl⟩, by simp [opcode], by simp [opcode], encode_length _⟩
theorem FrameHeader.dec (b : Bytes) : FrameHeader.Statement (.dec b) :=
  ⟨⟨b, rfl⟩, by simp [opcode], by simp [opcode], encode_length _⟩

end Sys2Proof.Laws
end

