-- ==== Sys2Proof/Tests/Slice0.lean ====
section
/-! SUPPORT. Tests whose expected values come from spec/ (the vector is named in each), and one
witness for the hypotheses of every statement of Certificates/Slice0/Obligations.lean. -/

namespace Sys2Proof.Tests

open Sys2Proof.Machine Sys2Proof.Safety

/-- The block after reset with a key set. -/
def keyed (k : Bytes) : State := { State.reset with key := some k }

/-- The response frame and the key register an outcome leaves. -/
def left (o : Result) : Option (Option Bytes × Option Bytes) :=
  match o with
  | .next s => some (s.rsp, s.key)
  | .fault _ => none
  | .refused _ => none

/-- The responses delivered and the key register after one step with these events in the port. -/
def stepped (s : State) (es : List Event) : Option (List Delivery × Option Bytes × Nat) :=
  match step { s with port := es } with
  | .next t => some (t.delivered, t.key, t.port.length)
  | .fault _ => none
  | .refused _ => none

/-- Key `KA` of 95_test_vectors.md. -/
abbrev KA : Bytes := [0x00, 0x01, 0x02, 0x03, 0x04, 0x05, 0x06, 0x07, 0x08, 0x09, 0x0A, 0x0B, 0x0C, 0x0D, 0x0E, 0x0F]
/-- Key `KS` of 95_test_vectors.md. -/
abbrev KS : Bytes := [0x61, 0x62, 0x63]
/-- The payload of V-E1. -/
abbrev rec8 : Bytes := [0x2A, 0x2C, 0x00, 0x00, 0x00, 0x00, 0x00, 0x00]
/-- The payload of V-C1. -/
abbrev ten8 : Bytes := [0x10, 0x11, 0x12, 0x13, 0x14, 0x15, 0x16, 0x17]

/-! ## Well-formedness: the one check refuses an ill-formed term -/

theorem test_wellFormed_refuses_long_payload : ¬ (Instr.xform (List.replicate 65536 0)).WellFormed := by
  rw [Instr.WellFormed, Instr.payload, List.length_replicate]; decide
theorem test_wellFormed_takes_longest_payload : (Instr.xform (List.replicate 65535 0)).WellFormed := by
  rw [Instr.WellFormed, Instr.payload, List.length_replicate]

/-! ## Decoding: frames written out from 30_encoding.md R50, R54 (V-N1 to V-N9) -/

theorem test_decode_setkey : decodeFrame [0x01, 0x10, 0x00, 0x00, 0x01, 0x02, 0x03, 0x04, 0x05, 0x06, 0x07, 0x08, 0x09,
    0x0A, 0x0B, 0x0C, 0x0D, 0x0E, 0x0F] = .command (.setkey KA) := by decide
theorem test_decode_getkey : decodeFrame [0x02, 0x00, 0x00] = .command (.getkey []) := by decide
theorem test_decode_xform : decodeFrame [0x03, 0x05, 0x00, 0x01, 0x02, 0x03, 0x04, 0x05] =
    .command (.xform [0x01, 0x02, 0x03, 0x04, 0x05]) := by decide
theorem test_decode_cenc : decodeFrame [0x04, 0x08, 0x00, 0x10, 0x11, 0x12, 0x13, 0x14, 0x15, 0x16, 0x17] =
    .command (.cenc ten8) := by decide
theorem test_decode_cdec : decodeFrame [0x05, 0x08, 0x00, 0x10, 0x11, 0x12, 0x13, 0x14, 0x15, 0x16, 0x17] =
    .command (.cdec ten8) := by decide
theorem test_decode_enc : decodeFrame [0x06, 0x08, 0x00, 0x2A, 0x2C, 0x00, 0x00, 0x00, 0x00, 0x00, 0x00] =
    .command (.enc rec8) := by decide
theorem test_decode_dec : decodeFrame [0x07, 0x08, 0x00, 0x35, 0xC4, 0xB1, 0x30, 0x14, 0xAF, 0x9C, 0xEE] =
    .command (.dec [0x35, 0xC4, 0xB1, 0x30, 0x14, 0xAF, 0x9C, 0xEE]) := by decide
/-- V-N9: a payload of 300 bytes has the header `OPC 2C 01`. -/
theorem test_encode_len_300 : (encode (.cdec (List.replicate 300 0))).take 3 = [0x05, 0x2C, 0x01] := by decide +kernel
/-- V-F13, V-F14: unassigned opcodes. -/
theorem test_decode_illegal : decodeFrame [0x00, 0x00, 0x00] = .illegalOp ∧ decodeFrame [0x08, 0x00, 0x00] = .illegalOp ∧
    decodeFrame [0xFF, 0x02, 0x00, 0xAA, 0xBB] = .illegalOp := by decide
/-- V-F15 to V-F17: malformed frames. -/
theorem test_decode_malformed : decodeFrame [0x06, 0x02, 0x00, 0xAA] = .badFrame ∧ decodeFrame [0x06, 0x08] = .badFrame ∧
    decodeFrame [0xFF, 0x05, 0x00, 0xAA] = .badFrame ∧ decodeFrame [] = .badFrame := by decide
theorem test_tableWord : decodeTableWord 8 0x03 = some (.xform []) ∧ decodeTableWord 8 0x08 = none ∧
    decodeTableWord 40 0xBBAA000206 = some (.enc [0xAA, 0xBB]) := by decide
/-- 30_encoding.md R59: the response frame of `XFORM 01 02 03 04 05`. -/
theorem test_response_frame : Response.frame { status := .ok, payload := [0x04, 0x03, 0x02, 0x01, 0x00, 0x00, 0x00, 0x05] } =
    [0x00, 0x08, 0x00, 0x04, 0x03, 0x02, 0x01, 0x00, 0x00, 0x00, 0x05] := by decide

/-! ## Functions -/

/-- V-K1, V-K4. -/
theorem test_keywords : keywords KS = #v[0x00636261, 0, 0, 0] ∧
    keywords (KA ++ [0x10, 0x11, 0x12, 0x13]) = #v[0x03020100, 0x07060504, 0x0B0A0908, 0x0F0E0D0C] := by decide
/-- V-M2, a check on the logical right shift. -/
theorem test_mx_logical_shift : mx 0x9E3779B9 0x9E3779B9 0x9E3779B9 1 2 #v[0, 0, 0, 0] = 0xF2EAA869 := by decide +kernel
/-- V-M5. -/
theorem test_mx_decryption : mx 0xC6EF3720 0x053704AB 0x053704AB 1 0 #v[0, 0, 0, 0] = 0xA1C36C98 := by decide +kernel
/-- 95_test_vectors.md 3.4, round 1. -/
theorem test_first_round : (encRound #v[0, 0, 0, 0] 2 (encStart [0, 0] 2)).v = [0x9E3779B9, 0xF2EAA869] := by decide +kernel
/-- 95_test_vectors.md 3.5, V-C10: the first round of three words. -/
theorem test_first_round_of_three : (encRound (keywords KA) 3 (encStart [0x13121110, 0x17161514, 0x1B1A1918] 3)).v =
    [0xAA04BC17, 0x3D6EE783, 0x3A22F43B] := by decide +kernel
/-- 95_test_vectors.md 3.4, the decryption trace's round 1. -/
theorem test_first_decryption_round : (decRound #v[0, 0, 0, 0] 2 (decStart [0x053704AB, 0x575D8C80] 2)).v =
    [0xF95EE03F, 0xB59A1FE8] := by decide +kernel
/-- V-C14, V-C13: both sides of the round-count floor. -/
theorem test_round_floor : (bteaEnc (List.replicate 52 0) 52 #v[0, 0, 0, 0]).take 2 = [0xE88AC2AF, 0x8400C80F] ∧
    (bteaEnc (List.replicate 53 0) 53 #v[0, 0, 0, 0]).drop 51 = [0x5A782966].insertIdx 0 0xDE6E6D1C := by decide +kernel

/-! ## Commands -/

/-- V-S1, V-S3. -/
theorem test_setkey : left (exec (.setkey KS) State.reset) = some (some [0x00, 0x00, 0x00], some KS) ∧
    left (exec (.setkey KA) (keyed KS)) = some (some [0x00, 0x00, 0x00], some KA) := by decide
/-- V-S5, V-L1, V-L2. -/
theorem test_setkey_length : left (exec (.setkey []) (keyed KA)) = some (some [0x02, 0x00, 0x00], some KA) ∧
    left (exec (.setkey (List.replicate 64 7)) (keyed KA)) = some (some [0x00, 0x00, 0x00], some (List.replicate 64 7)) ∧
    left (exec (.setkey (List.replicate 65 7)) (keyed KA)) = some (some [0x02, 0x00, 0x00], some KA) := by decide +kernel
/-- V-S2, V-S4: exact bytes. -/
theorem test_getkey : left (exec (.getkey []) (keyed KS)) = some (some [0x00, 0x03, 0x00, 0x61, 0x62, 0x63], some KS) ∧
    left (exec (.getkey []) (keyed (KA ++ [0x10, 0x11, 0x12, 0x13]))) =
      some (some ([0x00, 0x14, 0x00] ++ KA ++ [0x10, 0x11, 0x12, 0x13]), some (KA ++ [0x10, 0x11, 0x12, 0x13])) := by decide +kernel
/-- V-F10, V-F11. -/
theorem test_getkey_faults : left (exec (.getkey [0x00]) State.reset) = some (some [0x01, 0x00, 0x00], none) ∧
    left (exec (.getkey [0x00]) (keyed KA)) = some (some [0x03, 0x00, 0x00], some KA) := by decide
/-- V-T5, V-T6 (and V-F12: no key needed). -/
theorem test_xform : left (exec (.xform [0x01, 0x02, 0x03, 0x04, 0x05]) State.reset) =
      some (some [0x00, 0x08, 0x00, 0x04, 0x03, 0x02, 0x01, 0x00, 0x00, 0x00, 0x05], none) ∧
    transform [0x11, 0x22, 0x33, 0x44, 0x55, 0x66, 0x77, 0x88, 0x99, 0xAA, 0xBB] =
      [0x44, 0x33, 0x22, 0x11, 0x88, 0x77, 0x66, 0x55, 0x00, 0xBB, 0xAA, 0x99] := by decide +kernel
/-- V-T1, V-L5. -/
theorem test_xform_length : left (exec (.xform []) State.reset) = some (some [0x00, 0x00, 0x00], none) ∧
    left (exec (.xform (List.replicate 257 0)) State.reset) = some (some [0x03, 0x00, 0x00], none) := by decide +kernel
/-- V-P4 (published), V-C2. -/
theorem test_cenc : cipherEncrypt [0xFF, 0xFE, 0xFC, 0xF8, 0xF0, 0xE0, 0xC0, 0x80]
      [0x01, 0x02, 0x04, 0x08, 0x10, 0x20, 0x40, 0x80, 0xFF, 0xFE, 0xFC, 0xF8, 0xF0, 0xE0, 0xC0, 0x80] =
      [0x8C, 0x37, 0x07, 0xC0, 0x1C, 0x7F, 0xCC, 0xC4] ∧
    left (exec (.cenc (ten8 ++ [0x18, 0x19, 0x1A, 0x1B])) (keyed KA)) =
      some (some [0x00, 0x0C, 0x00, 0x7E, 0xD6, 0x53, 0xCD, 0x43, 0x29, 0x62, 0x5E, 0x05, 0x53, 0xAD, 0x12], some KA) := by
  decide +kernel
/-- V-F2 to V-F5. -/
theorem test_cenc_faults : left (exec (.cenc [0x01, 0x02, 0x03]) State.reset) = some (some [0x01, 0x00, 0x00], none) ∧
    left (exec (.cenc [0x01, 0x02, 0x03]) (keyed KA)) = some (some [0x03, 0x00, 0x00], some KA) ∧
    left (exec (.cenc [0x01, 0x02, 0x03, 0x04]) (keyed KA)) = some (some [0x03, 0x00, 0x00], some KA) ∧
    left (exec (.cenc []) (keyed KA)) = some (some [0x03, 0x00, 0x00], some KA) := by decide
/-- V-C11: data never encrypted. -/
theorem test_cdec : left (exec (.cdec ten8) (keyed KA)) =
    some (some [0x00, 0x08, 0x00, 0x12, 0x6D, 0x6B, 0xFC, 0xCB, 0x1B, 0x48, 0xBF], some KA) := by decide +kernel
/-- V-C12 for V-C5 (six words). -/
theorem test_cdec_six_words : cipherDecrypt [0xFA, 0xF5, 0xDE, 0x45, 0x80, 0xA9, 0xC2, 0x0C, 0x10, 0x5A, 0x62, 0x5A, 0x90, 0x58,
    0xCA, 0xFE, 0x79, 0x62, 0x24, 0x49, 0x52, 0x1F, 0xA5, 0x07] KA = List.replicate 24 0xFF := by decide +kernel
/-- V-E1, V-E6. -/
theorem test_enc : left (exec (.enc rec8) (keyed KA)) =
      some (some [0x00, 0x08, 0x00, 0x35, 0xC4, 0xB1, 0x30, 0x14, 0xAF, 0x9C, 0xEE], some KA) ∧
    encrypt [0x01, 0x02, 0x03, 0x04, 0x05, 0x06, 0x07] KA = [0x9D, 0x0B, 0x19, 0x95, 0x29, 0x2F, 0x0E, 0xD9] := by decide +kernel
/-- V-F1, V-F6. -/
theorem test_enc_faults : left (exec (.enc rec8) State.reset) = some (some [0x01, 0x00, 0x00], none) ∧
    left (exec (.enc [0x01, 0x02, 0x03, 0x04]) (keyed KA)) = some (some [0x03, 0x00, 0x00], some KA) := by decide
/-- V-E13 (unaligned ciphertext), V-E14 (wrong key: `OK`, meaningless bytes). -/
theorem test_dec : left (exec (.dec [0xDE, 0xAD, 0xBE, 0xEF, 0x01]) (keyed KA)) =
      some (some [0x00, 0x08, 0x00, 0xD0, 0xE4, 0x85, 0x36, 0xE8, 0x12, 0x5C, 0x30], some KA) ∧
    left (exec (.dec [0x35, 0xC4, 0xB1, 0x30, 0x14, 0xAF, 0x9C, 0xEE]) (keyed KS)) =
      some (some [0x00, 0x08, 0x00, 0x80, 0x10, 0x4A, 0xE6, 0xA6, 0x17, 0x54, 0x52], some KS) := by decide +kernel
/-- V-F9. -/
theorem test_dec_faults : left (exec (.dec [0x01, 0x02, 0x03, 0x04]) (keyed KA)) = some (some [0x03, 0x00, 0x00], some KA) := by
  decide

/-! ## Steps -/

/-- P1 step 2: the response goes to the host that asked. -/
theorem test_step_setkey : stepped State.reset [.command 7 [0x01, 0x03, 0x00, 0x61, 0x62, 0x63], .reset] =
    some ([{ host := 7, frame := [0x00, 0x00, 0x00] }], some KS, 1) := by decide
/-- P4 steps 9, 10; V-F18: `ILLEGAL_OP` before `KEY_NOT_SET`. -/
theorem test_step_undecodable : stepped (keyed KS) [.command 1 [0x00, 0x00, 0x00]] =
      some ([{ host := 1, frame := [0x04, 0x00, 0x00] }], some KS, 0) ∧
    stepped (keyed KS) [.command 1 [0x06, 0x02, 0x00, 0xAA]] =
      some ([{ host := 1, frame := [0x05, 0x00, 0x00] }], some KS, 0) ∧
    stepped State.reset [.command 1 [0x09, 0x03, 0x00, 0x01, 0x02, 0x03]] =
      some ([{ host := 1, frame := [0x04, 0x00, 0x00] }], none, 0) := by decide
/-- P4 step 11; 70_reset_and_hazards.md R170: a command cut off by reset has no response. -/
theorem test_step_reset : stepped (keyed KS) [.reset] = some ([], none, 0) ∧
    stepped (keyed KS) [.resetDuring 1 [0x01, 0x01, 0x00, 0x05]] = some ([], none, 0) := by decide
/-- 70_reset_and_hazards.md R183. -/
theorem test_step_waits : stepped (keyed KS) [] = some ([], some KS, 0) := by decide
theorem test_step_fetchWord : stepped State.reset (State.reset.withFetchWord 8 0x03).port =
    some ([{ host := 0, frame := [0x00, 0x00, 0x00] }], none, 0) := by decide

/-! ## Witnesses: for every statement with hypotheses, values that meet them, clause by clause -/

/-- `State.reset` with these events in its port. -/
def offered (es : List Event) : State := { State.reset with port := es }

theorem witness_LengthFieldsAreLittleEndian :
    (Instr.dec KA).WellFormed ∧ (Response.mk .ok KA).WellFormed ∧ (Response.mk .badLength []).WellFormed := by decide
theorem witness_FramesAndAbstractFormsAgree :
    (Instr.setkey []).WellFormed ∧ decodeFrame [0x06, 0x01, 0x00, 0xAA] = .command (.enc [0xAA]) ∧
    (Response.mk .ok [0x01]).WellFormed ∧
    Response.ofFrame [0x01, 0x00, 0x00] = some { status := .keyNotSet, payload := [] } := by decide
theorem witness_EveryByteSequenceIsSortedAndAnswered :
    (offered [.command 1 []]).port = .command 1 [] :: [] ∧ Malformed [] ∧
    ¬ Malformed [0x08, 0x00, 0x00] ∧ ¬ Assigned [0x08, 0x00, 0x00] ∧ ¬ Malformed [0x07, 0x00, 0x00] ∧
    Assigned [0x07, 0x00, 0x00] := by decide
theorem witness_ResetMeetsInvariant :
    (Config.mk 16 8).Legal ∧ (Config.mk 65535 65532).Legal ∧ ¬ (Config.mk 15 8).Legal := by decide
theorem witness_StepKeepsInvariant : Inv (offered [.reset]) ∧ Inv (keyed (List.replicate 64 1)) ∧
    step (offered [.reset]) = .next State.reset := ⟨by decide, by decide +kernel, rfl⟩
theorem witness_StepRunsTheDecodedCommand :
    (offered [.command 1 [0x03, 0x00, 0x00], .reset]).port = .command 1 [0x03, 0x00, 0x00] :: [.reset] ∧
    decodeFrame [0x03, 0x00, 0x00] = .command (.xform []) := by decide
theorem witness_EveryCommandIsAnsweredOnce :
    (offered [.command 0 [0xFF]]).port = .command 0 [0xFF] :: [] := rfl
theorem witness_ResetForgetsTheKey :
    (offered [.reset]).port = .reset :: [] ∧ (offered [.resetDuring 2 [0x01]]).port = .resetDuring 2 [0x01] :: [] :=
  ⟨rfl, rfl⟩
theorem witness_QuiescentBlockWaits : (keyed KA).port = [] := rfl
theorem witness_OnlySetkeyAndResetWriteTheKey :
    ∃ t, step (offered [.command 0 [0x01, 0x01, 0x00, 0x05]]) = .next t ∧ t.key = some [0x05] := ⟨_, rfl, rfl⟩
theorem witness_ResponsesDependOnCommandAndKeyOnly :
    (offered [.command 1 [0x02, 0x00, 0x00]]).port = .command 1 [0x02, 0x00, 0x00] :: [] ∧
    (offered [.command 2 [0x02, 0x00, 0x00], .reset]).port = .command 2 [0x02, 0x00, 0x00] :: [.reset] ∧
    (offered [.command 1 [0x02, 0x00, 0x00]]).cfg = (offered [.command 2 [0x02, 0x00, 0x00], .reset]).cfg ∧
    (offered [.command 1 [0x02, 0x00, 0x00]]).key = (offered [.command 2 [0x02, 0x00, 0x00], .reset]).key := by decide
theorem witness_FaultsFollowTheTableAndItsPriority :
    (offered [.command 0 [0x04, 0x00, 0x00]]).port = .command 0 [0x04, 0x00, 0x00] :: [] ∧
    frameStatus Config.default false [0x04, 0x00, 0x00] = .keyNotSet ∧
    frameStatus Config.default true [0x04, 0x00, 0x00] = .badLength ∧
    frameStatus Config.default false [0x01, 0x00, 0x00] = .invalidKey ∧
    frameStatus Config.default false [0x03, 0x00, 0x00] = .ok ∧
    frameStatus Config.default true [0x06, 0x05, 0x00, 0, 0, 0, 0, 0] = .ok := by decide
theorem witness_AfterResetOnlySetkeyAndXformSucceed : Config.default.Legal ∧
    1 ≤ (List.replicate 64 (0 : Byte)).length ∧ (List.replicate 64 (0 : Byte)).length ≤ Config.default.kmax ∧
    (List.replicate 256 (0 : Byte)).length ≤ Config.default.dmax := by decide +kernel
theorem witness_DocViewOfResponses : (Response.mk .ok KA).status = .ok ∧ (Response.mk .badFrame []).status ≠ .ok := by
  decide
theorem witness_SetkeyLoadsTheKey : 1 ≤ (List.replicate 64 (0 : Byte)).length ∧
    (List.replicate 64 (0 : Byte)).length ≤ State.reset.cfg.kmax ∧ ([] : Bytes).length = 0 ∧
    State.reset.cfg.kmax < (List.replicate 65 (0 : Byte)).length := by decide +kernel
theorem witness_GetkeyAnswersTheKey : State.reset.key = none ∧ (keyed KA).key = some KA ∧ ([0x00] : Bytes) ≠ [] := by
  decide
theorem witness_CommandsAreIdempotent : ∀ p, Instr.getkey [] ≠ .setkey p := by intro p; simp
theorem witness_EquivalentKeysCipherAlike : keywords KS = keywords [0x61, 0x62, 0x63, 0x00, 0x00] := by decide
theorem witness_PaddingArithmetic : 8 % 4 = 0 ∧ 7 % 4 ≠ 0 := by decide
theorem witness_WordPackingIsLittleEndian : ten8.length % 4 = 0 ∧ 1 < ten8.length / 4 := by decide
theorem witness_WordUnpackingInvertsPacking : ten8.length % 4 = 0 ∧ 0 < [(0xF0745BAD : Word)].length := by decide
theorem witness_XformReversesEveryWord : padlen (List.replicate 253 (0 : Byte)).length ≤ State.reset.cfg.dmax ∧
    padlen ([] : Bytes).length ≤ State.reset.cfg.dmax ∧ 255 < padlen (List.replicate 253 (0 : Byte)).length ∧
    State.reset.cfg.dmax < padlen (List.replicate 257 (0 : Byte)).length := by decide +kernel
theorem witness_TransformLaws : ten8.length % 4 = 0 ∧ KS.length % 4 ≠ 0 := by decide
theorem witness_TransformIsBswapOnWords : KA.length % 4 = 0 := by decide
theorem witness_RoundCounts : (9 ≤ 10 ∧ 10 ≤ 10) ∧ (11 ≤ 13 ∧ 13 ≤ 13) ∧ (14 ≤ 17 ∧ 17 ≤ 17) ∧ (18 ≤ 26 ∧ 26 ≤ 26) ∧
    (27 ≤ 52 ∧ 52 ≤ 52) ∧ 53 ≥ 53 ∧ 2 ≥ 2 := by decide
theorem witness_SumRunsThroughMultiplesOfDelta : 32 ≤ rounds 2 := by decide
theorem witness_EncryptionIsItsRounds : 2 ≤ 2 ∧ [(1 : Word), 2].length = 2 ∧ 31 < rounds 2 := by decide
theorem witness_DecryptionIsItsRounds : 2 ≤ 3 ∧ [(1 : Word), 2, 3].length = 3 ∧ 22 < rounds 3 := by decide
theorem witness_CipherDirectionsAreInverse : 2 ≤ 2 ∧ [(1 : Word), 2].length = 2 ∧ ten8.length % 4 = 0 ∧ 8 ≤ ten8.length := by
  decide
theorem witness_CencAnswersTheCiphertext : State.reset.key = none ∧ (keyed KA).key = some KA ∧ KS.length % 4 ≠ 0 ∧
    ([] : Bytes).length < 8 ∧ State.reset.cfg.dmax < (List.replicate 260 (0 : Byte)).length ∧ ten8.length % 4 = 0 ∧
    8 ≤ ten8.length ∧ ten8.length ≤ (keyed KA).cfg.dmax ∧ 8 ≤ (keyed (List.replicate 16 0)).cfg.dmax ∧
    (keyed (List.replicate 16 0)).key = some (List.replicate 16 0) := by decide +kernel
theorem witness_CdecAnswersThePlaintext : State.reset.key = none ∧ (keyed KA).key = some KA ∧ [(0 : Byte)].length % 4 ≠ 0 ∧
    (List.replicate 256 (0 : Byte)).length % 4 = 0 ∧ 8 ≤ (List.replicate 256 (0 : Byte)).length ∧
    (List.replicate 256 (0 : Byte)).length ≤ (keyed KA).cfg.dmax ∧
    (keyed (List.replicate 16 0)).key = some (List.replicate 16 0) := by decide +kernel
theorem witness_EncAnswersTheEnvelope : State.reset.key = none ∧ (keyed KA).key = some KA ∧
    padlen (List.replicate 4 (0 : Byte)).length < 8 ∧ (keyed KA).cfg.dmax < padlen (List.replicate 257 (0 : Byte)).length ∧
    8 ≤ padlen (List.replicate 5 (0 : Byte)).length ∧ padlen (List.replicate 253 (0 : Byte)).length ≤ (keyed KA).cfg.dmax ∧
    8 ≤ (keyed KA).cfg.dmax := by decide +kernel
theorem witness_DecAnswersTheOpenedEnvelope : State.reset.key = none ∧ (keyed KA).key = some KA ∧
    padlen ([] : Bytes).length < 8 ∧ 8 ≤ padlen rec8.length ∧ padlen rec8.length ≤ (keyed KA).cfg.dmax ∧
    8 ≤ (keyed KA).cfg.dmax := by decide
theorem witness_EnvelopeIsBigEndianXxtea : 8 ≤ padlen [(0xDE : Byte), 0xAD, 0xBE, 0xEF, 0x01].length := by decide
/-- The later state has met other events; the payloads are the shortest and the longest legal ones. -/
theorem witness_EnvelopeRoundTrip :
    let t : State := { keyed KA with port := [.reset], delivered := [{ host := 1, frame := [0x05, 0x00, 0x00] }] }
    (keyed KA).key = some KA ∧ t.key = some KA ∧ t.cfg = (keyed KA).cfg ∧ t ≠ keyed KA ∧
    ∀ b ∈ [List.replicate 8 (0x2A : Byte), List.replicate 256 (0x2A : Byte)],
      b.length % 4 = 0 ∧ 8 ≤ b.length ∧ b.length ≤ (keyed KA).cfg.dmax := by decide +kernel
theorem witness_UnalignedEnvelopeReturnsPaddedInput : 5 ≤ [(0x01 : Byte), 0x02, 0x03, 0x04, 0x05].length := by decide
theorem witness_EnvelopeIsXformCipherXform : (keyed KA).cfg.Legal ∧ (keyed KA).key = some KA ∧
    5 ≤ [(0x01 : Byte), 0x02, 0x03, 0x04, 0x05].length ∧ (List.replicate 256 (0 : Byte)).length ≤ (keyed KA).cfg.dmax ∧
    (List.replicate 4 (0 : Byte)).length ≤ 4 := by decide +kernel
theorem witness_AcceptanceOrderDecidesEverything :
    (offered [.command 0 [0x02, 0x00, 0x00], .reset, .resetDuring 0 []]).rsp = none := rfl
theorem witness_CommandsOtherThanSetkeyCommute :
    (∀ p, decodeFrame [0x02, 0x00, 0x00] ≠ .command (.setkey p)) ∧ (∀ p, decodeFrame [] ≠ .command (.setkey p)) :=
  have h : decodeFrame [0x02, 0x00, 0x00] = .command (.getkey []) := by decide
  ⟨fun p hp => (by rw [h] at hp; cases hp), fun p => by simp [decodeFrame]⟩
theorem witness_KeyStaysInForce : ({ keyed KA with port := [.command 3 []] } : State).key = some KA ∧
    ∀ e ∈ ({ keyed KA with port := [.command 3 []] } : State).port, ∃ h f, e = .command h f ∧ ∀ p, decodeFrame f ≠ .command (.setkey p) :=
  ⟨rfl, fun e he => ⟨3, [], by simpa using he, fun p => by simp [decodeFrame]⟩⟩
theorem witness_TwoHostsShareOneKey : Inv State.reset ∧ (0 : Nat) ≠ 1 ∧ 1 ≤ KA.length ∧ KA.length ≤ State.reset.cfg.kmax ∧
    1 ≤ KS.length ∧ KS.length ≤ State.reset.cfg.kmax ∧ 8 ≤ padlen rec8.length ∧
    padlen rec8.length ≤ State.reset.cfg.dmax ∧ State.reset.delivered = [] ∧
    commandsOf 0 [.command 0 (encode (.setkey KA)), .command 1 (encode (.setkey KS)), .command 0 (encode (.enc rec8))] =
      [encode (.setkey KA), encode (.enc rec8)] := by decide

end Sys2Proof.Tests
end

/-! # Proofs: the state. Reset, the key words, and what a response depends on (10_state.md). -/

namespace Sys2Proof.Machine

/-- Settles O6: `State.resetOf` writes an empty key register and an empty response port. -/
theorem resetLeavesNoKey : Obligations.ResetLeavesNoKey := by
  have h : ∀ c : Config, (State.resetOf c).keyv = false ∧ (State.resetOf c).key = none ∧
      (State.resetOf c).rsp = none :=
    fun c => ⟨State.keyv_none _ (State.resetOf_key c), State.resetOf_key c, State.resetOf_rsp c⟩
  exact ⟨h, h Config.default⟩

/-! ## The key words (10_state.md R13) -/

theorem keywords_get (key : Bytes) (i : Fin 4) : (keywords key).get i = keyWord key i := by
  match i with
  | 0 | 1 | 2 | 3 => rfl

theorem keyWord_toNat (key : Bytes) (i : Nat) : (keyWord key i).toNat =
    (key.getD (4 * i) 0).toNat + 2 ^ 8 * (key.getD (4 * i + 1) 0).toNat +
    2 ^ 16 * (key.getD (4 * i + 2) 0).toNat + 2 ^ 24 * (key.getD (4 * i + 3) 0).toNat := by
  simp only [keyWord, packLe_toNat, keyByte_eq_getD]

theorem keyByte_take (key : Bytes) {n j : Nat} (h : j < n) : keyByte (key.take n) j = keyByte key j := by
  simp only [keyByte_eq_getD, List.getD_eq_getElem?_getD, List.getElem?_take_of_lt h]

/-- Word i reads the key bytes 4i to 4i+3 only. -/
theorem keyWord_take (key : Bytes) {n i : Nat} (h : 4 * i + 3 < n) :
    keyWord (key.take n) i = keyWord key i := by
  simp only [keyWord]
  rw [keyByte_take key (by omega), keyByte_take key (by omega), keyByte_take key (by omega), keyByte_take key h]

theorem keywords_take (key : Bytes) : keywords (key.take 16) = keywords key := by
  simp only [keywords]
  rw [keyWord_take key (by decide), keyWord_take key (by decide), keyWord_take key (by decide),
    keyWord_take key (by decide)]

/-- Settles O25: each word is read off its four zero-extended key bytes, none of which is past index 15. -/
theorem keyWordsFromKeyBytes : Obligations.KeyWordsFromKeyBytes := by
  refine ⟨fun key i => ?_, keywords_take, by decide, by decide⟩
  rw [keywords_get, keyWord_toNat]

/-! ## What a response depends on (10_state.md R19) -/

theorem runFrame_command {f : Bytes} {i : Instr} (h : decodeFrame f = .command i) : runFrame f = exec i := by
  funext s; simp only [runFrame, h]

theorem runFrame_badFrame {f : Bytes} (h : decodeFrame f = .badFrame) : runFrame f = raise .badFrame := by
  funext s; simp only [runFrame, h, answerBadFrame]

theorem runFrame_illegalOp {f : Bytes} (h : decodeFrame f = .illegalOp) : runFrame f = raise .illegalOp := by
  funext s; simp only [runFrame, h, answerIllegalOp]

/-- `run` answers every state of parameters `c` and key register `k` with one and the same response
frame and leaves one and the same key; nothing else of the state matters or is changed. -/
def AnswersAlike (c : Config) (k : Option Bytes) (run : State → Result) : Prop :=
  ∃ (k' : Option Bytes) (r : Bytes), ∀ s : State, s.cfg = c → s.key = k →
    run s = .next { s with key := k', rsp := some r }

namespace AnswersAlike

variable {c : Config} {k : Option Bytes}

theorem respondOk (b : Bytes) : AnswersAlike c k (respondOk b) :=
  ⟨k, _, fun _ _ hk => hk ▸ respondOk_eq b _⟩

theorem raise (st : Status) : AnswersAlike c k (raise st) :=
  ⟨k, _, fun _ _ hk => hk ▸ raise_eq st _⟩

theorem respondOk_setKey (p b : Bytes) : AnswersAlike c k fun s => Machine.respondOk b (s.setKey p) :=
  ⟨some p, _, fun _ _ _ => respondOk_eq b _⟩

/-- An operand check reads the parameters only. -/
theorem ite {f g : State → Result} (p : Config → Prop) [DecidablePred p]
    (hf : AnswersAlike c k f) (hg : AnswersAlike c k g) :
    AnswersAlike c k fun s => if p s.cfg then f s else g s := by
  by_cases hp : p c
  · obtain ⟨k', r, h⟩ := hf
    exact ⟨k', r, fun s hc hk => by simp only [hc, hp, if_true, h s hc hk]⟩
  · obtain ⟨k', r, h⟩ := hg
    exact ⟨k', r, fun s hc hk => by simp only [hc, hp, if_false, h s hc hk]⟩

/-- The key check reads the key register only. -/
theorem withKey {f : Bytes → State → Result} (hf : ∀ key, AnswersAlike c k (f key)) :
    AnswersAlike c k fun s => withKey s fun key => f key s := by
  cases k with
  | none =>
    obtain ⟨k', r, h⟩ := raise (c := c) (k := none) .keyNotSet
    exact ⟨k', r, fun s hc hk => (withKey_none hk _).trans (h s hc hk)⟩
  | some key =>
    obtain ⟨k', r, h⟩ := hf key
    exact ⟨k', r, fun s hc hk => (withKey_some hk _).trans (h s hc hk)⟩

theorem exec (c : Config) (k : Option Bytes) (i : Instr) : AnswersAlike c k (exec i) := by
  cases i with
  | setkey p => exact ite (fun c => p.length = 0 ∨ c.kmax < p.length) (raise _) (respondOk_setKey p [])
  | getkey p => exact withKey fun key => ite (fun _ => p.length ≠ 0) (raise _) (respondOk key)
  | xform p => exact ite (fun c => c.dmax < padlen p.length) (raise _) (respondOk _)
  | cenc p => exact withKey fun _ => ite (fun c => rawLengthOk c p.length) (respondOk _) (raise _)
  | cdec p => exact withKey fun _ => ite (fun c => rawLengthOk c p.length) (respondOk _) (raise _)
  | enc p => exact withKey fun _ => ite (fun c => envelopeLengthOk c p.length) (respondOk _) (raise _)
  | dec p => exact withKey fun _ => ite (fun c => envelopeLengthOk c p.length) (respondOk _) (raise _)

theorem runFrame (c : Config) (k : Option Bytes) (f : Bytes) : AnswersAlike c k (runFrame f) := by
  cases h : decodeFrame f with
  | command i => rw [runFrame_command h]; exact exec c k i
  | badFrame => rw [runFrame_badFrame h]; exact raise _
  | illegalOp => rw [runFrame_illegalOp h]; exact raise _

end AnswersAlike

/-- One response and one key serve every step that meets the frame `f` with parameters `c` and key
register `k`: the response goes to the host that asked. -/
theorem step_answersAlike (c : Config) (k : Option Bytes) (f : Bytes) :
    ∃ (k' : Option Bytes) (r : Bytes), ∀ (s : State) (h : Nat) (es : List Event),
      s.port = .command h f :: es → s.cfg = c → s.key = k → step s = .next { s with
        key := k', port := es, rsp := none, delivered := s.delivered ++ [{ host := h, frame := r }] } := by
  obtain ⟨k', r, hrun⟩ := AnswersAlike.runFrame c k f
  refine ⟨k', r, fun s h es hp hc hk => ?_⟩
  rw [step_command hp, hrun { s with port := es } hc hk, deliverTo_next, State.deliver_some _ r h rfl]

/-- Settles O14: the response and the key left behind are chosen from the parameters, the key and
the frame before the state is known. -/
theorem responsesDependOnCommandAndKeyOnly : Obligations.ResponsesDependOnCommandAndKeyOnly := by
  intro s t h g f es us hs ht hcfg hkey
  obtain ⟨k', r, hstep⟩ := step_answersAlike s.cfg s.key f
  exact ⟨k', r, hstep s h es hs rfl rfl, hstep t g us ht hcfg.symm hkey.symm⟩

end Sys2Proof.Machine

/-! # Proofs: padding and the words of byte sequences (20_memory.md). -/

namespace Sys2Proof.Machine

theorem padlen_of_unaligned {l : Nat} (h : l % 4 ≠ 0) : padlen l = l + (4 - l % 4) := if_neg h

/-- Settles O22: the two branches of `padlen`, and `pad0` as it is defined. -/
theorem paddingArithmetic : Obligations.PaddingArithmetic :=
  ⟨fun _ => ⟨padlen_of_aligned, padlen_of_unaligned⟩, fun _ => rfl, by decide⟩

/-! ## Packing (R31) -/

theorem wordsLe_getD {b : Bytes} {i : Nat} (h : i < b.length / 4) :
    (wordsLe b).getD i 0 = memRead4 b (4 * i) := by
  simp [wordsLe, h]

theorem memRead4_toNat (b : Bytes) (a : Nat) : (memRead4 b a).toNat =
    (b.getD a 0).toNat + 2 ^ 8 * (b.getD (a + 1) 0).toNat +
    2 ^ 16 * (b.getD (a + 2) 0).toNat + 2 ^ 24 * (b.getD (a + 3) 0).toNat :=
  packLe_toNat _ _ _ _

/-- Settles O23: word `i` is the four bytes read at `4 * i`, of which the value is known. -/
theorem wordPackingIsLittleEndian : Obligations.WordPackingIsLittleEndian := by
  refine ⟨fun b _ => ⟨wordsLe_length b, fun i hi => ?_⟩, by decide⟩
  rw [wordsLe_getD hi, memRead4_toNat]

/-! ## Unpacking (R32) -/

theorem bytesLe_wordsLe {b : Bytes} (h : b.length % 4 = 0) : bytesLe (wordsLe b) = b := by
  induction b, h using aligned_induction with
  | nil => rfl
  | word b0 b1 b2 b3 c hc ih =>
    rw [wordsLe_word, bytesLe_cons, unpackLe_packLe, ih]
    rfl

theorem wordsLe_unpackLe_append (w : Word) (c : Bytes) : wordsLe (unpackLe w ++ c) = w :: wordsLe c :=
  (wordsLe_word _ _ _ _ c).trans (congrArg (· :: wordsLe c) (packLe_lanes w))

theorem wordsLe_bytesLe (v : List Word) : wordsLe (bytesLe v) = v := by
  induction v with
  | nil => rfl
  | cons w v ih => rw [bytesLe_cons, wordsLe_unpackLe_append, ih]

/-- The lanes of one unpacked word. -/
theorem unpackLe_getD (w : Word) {j : Nat} (h : j < 4) :
    (unpackLe w).getD j 0 = w.extractLsb' (8 * j) 8 := by
  match j, h with
  | 0, _ | 1, _ | 2, _ | 3, _ => rfl

@[simp] theorem unpackLe_length (w : Word) : (unpackLe w).length = 4 := rfl

theorem bytesLe_getD (v : List Word) (i : Nat) {j : Nat} (hi : i < v.length) (hj : j < 4) :
    (bytesLe v).getD (4 * i + j) 0 = (v.getD i 0).extractLsb' (8 * j) 8 := by
  induction v generalizing i with
  | nil => exact absurd hi (Nat.not_lt_zero i)
  | cons w v ih =>
    rw [bytesLe_cons]
    cases i with
    | zero =>
      rw [List.getD_append _ _ _ _ (by simpa using hj), Nat.mul_zero, Nat.zero_add,
        unpackLe_getD w hj, List.getD_cons_zero]
    | succ i =>
      rw [List.getD_append_right _ _ _ _ (by simp; omega), unpackLe_length,
        show 4 * (i + 1) + j - 4 = 4 * i + j by omega, ih i (Nat.lt_of_succ_lt_succ hi),
        List.getD_cons_succ]

/-- Settles O24: packing and unpacking are inverse on one word, hence on every word of a sequence. -/
theorem wordUnpackingInvertsPacking : Obligations.WordUnpackingInvertsPacking :=
  ⟨fun _ h => bytesLe_wordsLe h,
    fun v => ⟨wordsLe_bytesLe v, bytesLe_length v, fun i hi _ hj => bytesLe_getD v i hi hj⟩,
    by decide⟩

end Sys2Proof.Machine

/-! # Proofs: the encoding. Length fields, the sorting of byte sequences, and the correspondence of
frames and abstract forms (30_encoding.md). -/

namespace Sys2Proof.Machine

open Sys2Proof.Safety

/-! ## The length field (R52) -/

/-- The two length bytes of a header written for `n` payload bytes say `n`. -/
theorem lenBytes_toNat {n : Nat} (h : n ≤ 65535) : (lenLo n).toNat + 256 * (lenHi n).toNat = n := by
  rw [← lenField_toNat, lenField_of_len h]

/-- A payload that is as long as two bytes say fits the length field, and those bytes are the ones
an encoder writes for it. -/
theorem lenBytes_of_length {lo hi : Byte} {b : Bytes} (h : b.length = (lenField lo hi).toNat) :
    b.length ≤ 65535 ∧ lenLo b.length = lo ∧ lenHi b.length = hi :=
  ⟨Nat.le_of_lt_succ (h ▸ (lenField lo hi).isLt), h ▸ len_of_lenField lo hi⟩

/-- Settles O2: in both kinds of frame bytes 1 and 2 are the length bytes of the payload, and the
frame is 3 bytes longer than its payload. -/
theorem lengthFieldsAreLittleEndian : Obligations.LengthFieldsAreLittleEndian := by
  refine ⟨lenField_toNat, fun i hi => ?_, fun r hr => ?_⟩
  · rw [encode_length, Nat.add_sub_cancel_left]
    exact lenBytes_toNat hi
  · rw [Response.frame_length, Nat.add_sub_cancel_left]
    exact lenBytes_toNat hr.1

/-! ## What the decoder answers (R53, R55, R56) -/

/-- A sequence with a whole header is malformed exactly when the header misstates the payload's length. -/
theorem malformed_header (opc lo hi : Byte) (b : Bytes) :
    Malformed (opc :: lo :: hi :: b) ↔ b.length ≠ (lenField lo hi).toNat := by
  rw [lenField_toNat]
  simp [Malformed]
  omega

theorem decodeFrame_malformed {f : Bytes} (h : Malformed f) : decodeFrame f = .badFrame := by
  match f, h with
  | [], _ | [_], _ | [_, _], _ => rfl
  | opc :: lo :: hi :: b, h => exact if_neg ((malformed_header opc lo hi b).mp h)

/-- The decoder reads a well-framed sequence's opcode from byte 0 and its payload from byte 3 on. -/
theorem decodeFrame_framed {f : Bytes} (h : ¬ Malformed f) :
    decodeFrame f = decodeOp (f.getD 0 0) (f.drop 3) := by
  match f, h with
  | [], h | [_], h | [_, _], h => exact absurd (.inl (by simp)) h
  | opc :: lo :: hi :: b, h => exact if_pos (not_not.mp (mt (malformed_header opc lo hi b).mpr h))

theorem decodeFrame_eq_badFrame {f : Bytes} : decodeFrame f = .badFrame ↔ Malformed f := by
  refine ⟨fun h => ?_, decodeFrame_malformed⟩
  by_contra hf
  exact decodeOp_ne_badFrame ((decodeFrame_framed hf).symm.trans h)

theorem decodeFrame_eq_illegalOp {f : Bytes} :
    decodeFrame f = .illegalOp ↔ ¬ Malformed f ∧ ¬ Assigned f := by
  by_cases hf : Malformed f
  · simp [decodeFrame_malformed hf, hf]
  · rw [decodeFrame_framed hf, decodeOp_illegal]
    exact (and_iff_right hf).symm

/-- What is neither `BAD_FRAME` nor `ILLEGAL_OP` is a command. -/
theorem exists_decodeFrame_eq_command {f : Bytes} :
    (∃ i, decodeFrame f = .command i) ↔ decodeFrame f ≠ .badFrame ∧ decodeFrame f ≠ .illegalOp := by
  cases decodeFrame f with
  | command i => simp
  | badFrame => simp
  | illegalOp => simp

theorem exists_decodeFrame_eq_command_iff_assigned {f : Bytes} :
    (∃ i, decodeFrame f = .command i) ↔ ¬ Malformed f ∧ Assigned f := by
  rw [exists_decodeFrame_eq_command, ne_eq, ne_eq, decodeFrame_eq_badFrame, decodeFrame_eq_illegalOp]
  tauto

/-- A frame refused with the status `st` delivers the frame `st 00 00` and changes the ports only. -/
theorem step_of_raise {s : State} {h : Nat} {f : Bytes} {es : List Event} {st : Status}
    (hp : s.port = .command h f :: es) (hf : runFrame f = raise st) :
    step s = .next { s with
      port := es, rsp := none, delivered := s.delivered ++ [{ host := h, frame := [st.code, 0, 0] }] } := by
  rw [step_command hp, hf, deliverTo_raise]

/-- Settles O5: the decoder's three answers are told apart by frame length and opcode, and the two
refusals are raised as faults. -/
theorem everyByteSequenceIsSortedAndAnswered : Obligations.EveryByteSequenceIsSortedAndAnswered := by
  refine ⟨fun f => ⟨decodeFrame_eq_badFrame, decodeFrame_eq_illegalOp,
      exists_decodeFrame_eq_command_iff_assigned⟩,
    fun s h f es hp => ⟨fun hbad => ?_, fun hframed hop => ?_⟩⟩
  · exact step_of_raise hp (runFrame_badFrame (decodeFrame_eq_badFrame.mpr hbad))
  · exact step_of_raise hp (runFrame_illegalOp (decodeFrame_eq_illegalOp.mpr ⟨hframed, hop⟩))

/-! ## Frames and abstract forms (R61) -/

theorem decodeFrame_encode {i : Instr} (h : i.WellFormed) : decodeFrame (encode i) = .command i :=
  (if_pos (lenField_of_len h).symm).trans (decodeOp_opcode i)

theorem encode_of_decodeFrame {f : Bytes} {i : Instr} (h : decodeFrame f = .command i) :
    i.WellFormed ∧ encode i = f := by
  match f, h with
  | opc :: lo :: hi :: b, h =>
    have hlen : b.length = (lenField lo hi).toNat := by
      by_contra hne
      rw [decodeFrame, if_neg hne] at h
      cases h
    rw [decodeFrame, if_pos hlen] at h
    obtain ⟨hop, rfl⟩ := decodeOp_command h
    obtain ⟨hmax, hlo, hhi⟩ := lenBytes_of_length hlen
    exact ⟨hmax, by rw [encode, hop, hlo, hhi]⟩

namespace Response

theorem ofFrame_frame {r : Response} (h : r.WellFormed) : ofFrame r.frame = some r := by
  obtain ⟨hmax, hempty⟩ := h
  simp only [frame, ofFrame, Status.ofCode_code]
  exact if_pos ⟨(lenField_of_len hmax).symm, hempty⟩

theorem frame_of_ofFrame {f : Bytes} {r : Response} (h : ofFrame f = some r) :
    r.WellFormed ∧ r.frame = f := by
  match f, h with
  | code :: lo :: hi :: b, h =>
    cases hst : Status.ofCode code with
    | none => simp [ofFrame, hst] at h
    | some st =>
      simp only [ofFrame, hst, Option.ite_none_right_eq_some, Option.some.injEq] at h
      obtain ⟨⟨hlen, hempty⟩, rfl⟩ := h
      obtain ⟨hmax, hlo, hhi⟩ := lenBytes_of_length hlen
      exact ⟨⟨hmax, hempty⟩, by simp only [frame, Status.code_of_ofCode hst, hlo, hhi]⟩

end Response

/-- Settles O4: encoder and decoder are inverse on commands, and writing and reading a frame are
inverse on responses. -/
theorem framesAndAbstractFormsAgree : Obligations.FramesAndAbstractFormsAgree :=
  ⟨fun _ => decodeFrame_encode, fun _ _ => encode_of_decodeFrame,
    fun _ => Response.ofFrame_frame, fun _ _ => Response.frame_of_ofFrame⟩

end Sys2Proof.Machine

/-! # Proofs: the key commands `SETKEY` and `GETKEY` (40_key.md). -/

namespace Sys2Proof.Machine

/-! ## What each command answers, one equation per outcome -/

section Outcomes

variable {s : State} {p k : Bytes}

theorem exec_setkey_of_invalidLength (h : p.length = 0 ∨ s.cfg.kmax < p.length) :
    exec (.setkey p) s = raise .invalidKey s := if_pos h

theorem exec_setkey_of_validLength (h1 : 1 ≤ p.length) (h2 : p.length ≤ s.cfg.kmax) :
    exec (.setkey p) s = respondOk [] (s.setKey p) :=
  have h : ¬ (p.length = 0 ∨ s.cfg.kmax < p.length) := by omega
  if_neg h

theorem exec_getkey_of_no_key (hk : s.key = none) : exec (.getkey p) s = raise .keyNotSet s :=
  withKey_none hk _

theorem exec_getkey_of_payload (hk : s.key = some k) (hp : p ≠ []) :
    exec (.getkey p) s = raise .badLength s :=
  (withKey_some hk _).trans (if_pos (mt List.length_eq_zero_iff.mp hp))

theorem exec_getkey_of_key (hk : s.key = some k) : exec (.getkey []) s = respondOk k s :=
  withKey_some hk _

end Outcomes

/-! ## The two rules -/

/-- Settles O18: a legal length writes the key register, which the reads `keyv`, `klen` and `kbuf`
then show; any other length is a fault, which keeps the state. -/
theorem setkeyLoadsTheKey : Obligations.SetkeyLoadsTheKey := by
  refine fun s p => ⟨rfl, fun h1 h2 => ?_, fun h => ?_⟩
  · have hexec : exec (.setkey p) s = .next { s with key := some p, rsp := some [0x00, 0x00, 0x00] } := by
      rw [exec_setkey_of_validLength h1 h2, respondOk_eq, emptyResponse_frame]
      rfl
    exact ⟨_, hexec, rfl, State.keyv_some _ p rfl, State.klen_some _ p rfl, State.kbuf_some _ p rfl⟩
  · exact (exec_setkey_of_invalidLength h).trans (raise_eq .invalidKey s)

/-- Settles O19: the key check comes before the payload check, and the answer is the key register's
content as it stands. -/
theorem getkeyAnswersTheKey : Obligations.GetkeyAnswersTheKey := by
  refine fun s p => ⟨rfl, fun hk => ?_, fun k hk hp => ?_, fun k hk => ?_⟩
  · exact (exec_getkey_of_no_key hk).trans (raise_eq .keyNotSet s)
  · exact (exec_getkey_of_payload hk hp).trans (raise_eq .badLength s)
  · exact (exec_getkey_of_key hk).trans (respondOk_eq k s)

end Sys2Proof.Machine

/-! # Proofs: the byte-order transform and the command `XFORM` (41_transform.md). -/

namespace Sys2Proof.Machine

/-! ## The bytes of the transform (R80, R84) -/

/-- Past the end both sides read 0, since a position and its mirror image lie in the same word. -/
theorem transform_getD_of_aligned {b : Bytes} (h : b.length % 4 = 0) (a : Nat) :
    (transform b).getD a 0 = b.getD (4 * (a / 4) + (3 - a % 4)) 0 := by
  induction b, h using aligned_induction generalizing a with
  | nil => rfl
  | word b0 b1 b2 b3 c hc ih =>
    rw [transform_word]
    match a with
    | 0 | 1 | 2 | 3 => rfl
    | a + 4 =>
      have hmirror : 4 * ((a + 4) / 4) + (3 - (a + 4) % 4) = 4 * (a / 4) + (3 - a % 4) + 4 := by omega
      rw [hmirror]
      exact ih a

/-- Padding comes first: the bytes reversed are those of the padded sequence. -/
theorem transform_getD (b : Bytes) (a : Nat) :
    (transform b).getD a 0 = (pad0 b).getD (4 * (a / 4) + (3 - a % 4)) 0 := by
  have hpad : (pad0 b).length % 4 = 0 := by rw [pad0_length]; exact padlen_mod _
  rw [← transform_pad0, transform_getD_of_aligned hpad]

/-! ## What the command answers, one equation per outcome (R81) -/

section Outcomes

variable {s : State} {b : Bytes}

theorem exec_xform_of_validLength (h : padlen b.length ≤ s.cfg.dmax) :
    exec (.xform b) s = respondOk (transform b) s := if_neg (Nat.not_lt.mpr h)

theorem exec_xform_of_tooLong (h : s.cfg.dmax < padlen b.length) :
    exec (.xform b) s = raise .badLength s := if_pos h

end Outcomes

/-- Settles O26: the payload answered is the transform, whose bytes are known; a longer operand is a
fault, which keeps the state. No case reads the key register. -/
theorem xformReversesEveryWord : Obligations.XformReversesEveryWord := by
  refine fun s b => ⟨rfl, fun h => ⟨transform b, ?_, transform_length b, fun a _ => transform_getD b a⟩, fun h => ?_⟩
  · exact (exec_xform_of_validLength h).trans (respondOk_eq (transform b) s)
  · exact (exec_xform_of_tooLong h).trans (raise_eq .badLength s)

end Sys2Proof.Machine

/-! # Proofs: the cipher and the commands `CENC` and `CDEC` (42_cipher.md). -/

namespace Sys2Proof.Machine

open Sys2Proof.Safety

/-! ## Round counts and `SUM` (R91, R92) -/

/-- `rounds` from the quotient's two bounds, so that a range of word counts is two linear inequalities. -/
theorem rounds_eq_of_bounds {n : Nat} (q : Nat) (h1 : q * n ≤ 52) (h2 : 52 < (q + 1) * n) : rounds n = 6 + q :=
  congrArg (6 + ·) (Nat.div_eq_of_lt_le h1 h2)

theorem decStart_sum {n q : Nat} (h : rounds n = q) (v : List Word) :
    (decStart v n).sum = BitVec.ofNat 32 q * delta := by
  rw [← h]; rfl

/-- Settles O29: each range of word counts has one quotient `52 / n`, and `SUM` starts at that many
rounds' worth of `DELTA`. -/
theorem roundCounts : Obligations.RoundCounts := by
  have h9 : ∀ n, 9 ≤ n → n ≤ 10 → rounds n = 11 := fun _ _ _ => rounds_eq_of_bounds 5 (by omega) (by omega)
  have h11 : ∀ n, 11 ≤ n → n ≤ 13 → rounds n = 10 := fun _ _ _ => rounds_eq_of_bounds 4 (by omega) (by omega)
  have h14 : ∀ n, 14 ≤ n → n ≤ 17 → rounds n = 9 := fun _ _ _ => rounds_eq_of_bounds 3 (by omega) (by omega)
  have h18 : ∀ n, 18 ≤ n → n ≤ 26 → rounds n = 8 := fun _ _ _ => rounds_eq_of_bounds 2 (by omega) (by omega)
  have h27 : ∀ n, 27 ≤ n → n ≤ 52 → rounds n = 7 := fun _ _ _ => rounds_eq_of_bounds 1 (by omega) (by omega)
  have h53 : ∀ n ≥ 53, rounds n = 6 := fun _ _ => rounds_eq_of_bounds 0 (by omega) (by omega)
  refine ⟨fun _ _ => rfl, rfl, rfl, rfl, rfl, rfl, rfl, rfl, h9, h11, h14, h18, h27, h53, fun v =>
    ⟨rfl, rfl, rfl, rfl, rfl, rfl, rfl, fun n h h' => ?_, fun n h h' => ?_, fun n h h' => ?_,
      fun n h h' => ?_, fun n h h' => ?_, fun n h => ?_⟩⟩
  · exact decStart_sum (h9 n h h') v
  · exact decStart_sum (h11 n h h') v
  · exact decStart_sum (h14 n h h') v
  · exact decStart_sum (h18 n h h') v
  · exact decStart_sum (h27 n h h') v
  · exact decStart_sum (h53 n h) v

theorem ofNat_succ_mul_delta (r : Nat) :
    BitVec.ofNat 32 (r + 1) * delta = BitVec.ofNat 32 r * delta + delta := by
  rw [BitVec.ofNat_add, BitVec.add_mul, BitVec.one_mul]

theorem encRounds_sum (k : KeyWords) (v : List Word) (n r : Nat) :
    (encRounds k n r (encStart v n)).sum = BitVec.ofNat 32 r * delta := by
  induction r with
  | zero => rfl
  | succ r ih => rw [encRounds_succ', encRound_sum, ih, ofNat_succ_mul_delta]

theorem decRounds_sum (k : KeyWords) (v : List Word) (n r : Nat) (hr : r ≤ rounds n) :
    (decRounds k n r (decStart v n)).sum = BitVec.ofNat 32 (rounds n - r) * delta := by
  induction r with
  | zero => rfl
  | succ r ih =>
    have hleft : rounds n - r = rounds n - (r + 1) + 1 := by omega
    rw [decRounds_succ', decRound_sum, ih (by omega), hleft, ofNat_succ_mul_delta, BitVec.add_sub_cancel]

/-- Settles O30: every round moves `SUM` by one `DELTA`, from 0 upwards or from `rounds(N)` times
`DELTA` downwards. -/
theorem sumRunsThroughMultiplesOfDelta : Obligations.SumRunsThroughMultiplesOfDelta :=
  ⟨rfl, encRounds_sum, decRounds_sum, rfl, rfl, rfl, rfl, rfl, rfl⟩

/-! ## The mixing function (R93) -/

theorem keyIndex_val (p : Nat) (e : BitVec 2) : (keyIndex p e).val = (p &&& 3) ^^^ e.toNat := by
  have hp : p &&& 3 = p % 4 := Nat.and_two_pow_sub_one_eq_mod p 2
  rw [hp]
  exact BitVec.toNat_xor (BitVec.ofNat 2 p) e

/-- Settles O31: the model's key index is the rule's number, and below 4 since it is the index of a key word. -/
theorem mixingFunction : Obligations.MixingFunction := by
  refine ⟨fun sum y z p e k => ?_, fun p e => keyIndex_val p e ▸ (keyIndex p e).isLt, by decide⟩
  have hkey : k.get (keyIndex p e) = k.toList.getD ((p &&& 3) ^^^ e.toNat) 0 := by
    rw [← keyIndex_val, List.getD_eq_getElem _ _ (by simp)]
    rfl
  rw [← hkey]
  rfl

/-! ## A round as a pass of word updates

Both directions write the words one after the other in the one array, each from its current
neighbours in the ring of N words; they differ in the order of the words and in what is written. -/

/-- The right neighbour of word `p`, which is read as `Y`. -/
def rightOf (n p : Nat) : Nat := if p + 1 < n then p + 1 else 0

/-- The left neighbour of word `p`, which is read as `Z`. -/
def leftOf (n p : Nat) : Nat := if p = 0 then n - 1 else p - 1

/-- Word `p` is replaced by `f p` of itself and its right and left neighbours. -/
def updateWord (f : Nat → Word → Word → Word → Word) (n : Nat) (v : List Word) (p : Nat) : List Word :=
  v.set p (f p (readV v p) (readV v (rightOf n p)) (readV v (leftOf n p)))

/-- What encryption writes for word `p` of value `x` (R94). -/
def encMix (k : KeyWords) (sum : Word) (p : Nat) (x y z : Word) : Word := x + mx sum y z p (selector sum) k

/-- What decryption writes for word `p` of value `x` (R95). -/
def decMix (k : KeyWords) (sum : Word) (p : Nat) (x y z : Word) : Word := x - mx sum y z p (selector sum) k

section Updates

variable {f : Nat → Word → Word → Word → Word} {n : Nat}

theorem foldl_updateWord_length (ps : List Nat) (v : List Word) :
    (ps.foldl (updateWord f n) v).length = v.length := by
  induction ps generalizing v with
  | nil => rfl
  | cons p ps ih => rw [List.foldl_cons, ih, updateWord, List.length_set]

/-- A pass leaves the words it does not visit. -/
theorem readV_foldl_updateWord_of_notMem {ps : List Nat} {q : Nat} (h : q ∉ ps) (v : List Word) :
    readV (ps.foldl (updateWord f n) v) q = readV v q := by
  induction ps generalizing v with
  | nil => rfl
  | cons p ps ih =>
    rw [List.mem_cons, not_or] at h
    rw [List.foldl_cons, ih h.2, updateWord, readV_set_ne (Ne.symm h.1)]

/-- What a pass in the order `r` writes in word `p`. Its update finds an array `u` in which the words
before `p` have their final value and the words after `p` are as the pass found them. -/
theorem exists_readV_of_pass {r : Nat → Nat → Prop} [Std.Asymm r] {ps : List Nat} (hps : ps.Pairwise r)
    {v v' : List Word} (hpass : v' = ps.foldl (updateWord f n) v) {p : Nat} (hp : p ∈ ps) (hv : p < v.length) :
    ∃ u : List Word, (∀ q, r q p → readV u q = readV v' q) ∧ (∀ q, r p q → readV u q = readV v q) ∧
      readV v' p = f p (readV v p) (readV u (rightOf n p)) (readV u (leftOf n p)) := by
  obtain ⟨before, after, rfl⟩ := List.append_of_mem hp
  obtain ⟨-, htail, hcross⟩ := List.pairwise_append.mp hps
  have hbefore : ∀ q ∈ before, r q p := fun q hq => hcross q hq p List.mem_cons_self
  have hafter : ∀ q ∈ after, r p q := (List.pairwise_cons.mp htail).1
  have hirrefl : ¬ r p p := fun h => Std.Asymm.asymm p p h h
  rw [List.foldl_append] at hpass
  refine ⟨before.foldl (updateWord f n) v, fun q hq => ?_, fun q hq => ?_, ?_⟩
  · have hnot : q ∉ p :: after := by
      rintro (_ | ⟨_, hmem⟩)
      · exact hirrefl hq
      · exact Std.Asymm.asymm q p hq (hafter q hmem)
    rw [hpass, readV_foldl_updateWord_of_notMem hnot]
  · have hnot : q ∉ before := fun hmem => Std.Asymm.asymm p q hq (hbefore q hmem)
    exact readV_foldl_updateWord_of_notMem hnot v
  · have hnotBefore : p ∉ before := fun hmem => hirrefl (hbefore p hmem)
    have hnotAfter : p ∉ after := fun hmem => hirrefl (hafter p hmem)
    rw [hpass, List.foldl_cons, readV_foldl_updateWord_of_notMem hnotAfter, updateWord,
      readV_set_eq (by rwa [foldl_updateWord_length]), readV_foldl_updateWord_of_notMem hnotBefore]

end Updates

/-! ## Encryption is its rounds (R94) -/

/-- The working registers of `BTEA_ENC` when word `p` is next: `Z` is the left neighbour. -/
def encAt (n : Nat) (sum : Word) (v : List Word) (p : Nat) : EncWork :=
  { v := v, sum := sum, z := readV v (leftOf n p) }

section Encryption

variable (k : KeyWords) {n : Nat} (sum : Word) (v : List Word)

@[simp] theorem encAt_v (p : Nat) : (encAt n sum v p).v = v := rfl

theorem encWord_encAt {p : Nat} (h : p + 1 < n) : encWord k (selector sum) (encAt n sum v p) p =
    encAt n sum (updateWord (encMix k sum) n v p) (p + 1) := by
  simp [encWord, encAt, updateWord, encMix, leftOf, rightOf, h]

theorem encLast_encAt (h : 1 ≤ n) : encLast k n (selector sum) (encAt n sum v (n - 1)) =
    encAt n sum (updateWord (encMix k sum) n v (n - 1)) 0 := by
  simp [encLast, encAt, updateWord, encMix, leftOf, rightOf, Nat.sub_add_cancel h]

theorem foldl_encWord_encAt {m : Nat} (h : m < n) :
    (List.range m).foldl (encWord k (selector sum)) (encAt n sum v 0) =
      encAt n sum ((List.range m).foldl (updateWord (encMix k sum) n) v) m := by
  induction m with
  | zero => rfl
  | succ m ih =>
    rw [List.range_succ, List.foldl_concat, List.foldl_concat, ih (by omega), encWord_encAt k sum _ h]

/-- An encryption round visits the words upwards. -/
theorem encRound_encAt (h : 1 ≤ n) : encRound k n (encAt n sum v 0) =
    encAt n (sum + delta) ((List.range n).foldl (updateWord (encMix k (sum + delta)) n) v) 0 := by
  have hrange : List.range n = List.range (n - 1) ++ [n - 1] := by
    rw [← List.range_succ, Nat.succ_eq_add_one, Nat.sub_add_cancel h]
  have hround : encRound k n (encAt n sum v 0) = encLast k n (selector (sum + delta))
      ((List.range (n - 1)).foldl (encWord k (selector (sum + delta))) (encAt n (sum + delta) v 0)) := rfl
  rw [hround, foldl_encWord_encAt k _ v (by omega), encLast_encAt k _ _ h, hrange, List.foldl_concat]

end Encryption

/-- In an upward pass the words below `p` are the new ones. -/
theorem encRoundRel_of_pass {k : KeyWords} {n : Nat} {sum : Word} {v v' : List Word} (hn : 2 ≤ n) (hv : v.length = n)
    (hpass : v' = (List.range n).foldl (updateWord (encMix k sum) n) v) : EncRoundRel k n sum v v' := by
  refine ⟨by rw [hpass, foldl_updateWord_length, hv], fun p hp => ?_⟩
  obtain ⟨u, hnew, hold, hword⟩ :=
    exists_readV_of_pass List.pairwise_lt_range hpass (List.mem_range.mpr hp) (hv ▸ hp)
  have hright : readV u (rightOf n p) = if p + 1 < n then readV v (p + 1) else readV v' 0 :=
    (apply_ite (readV u) ..).trans (ite_congr rfl (fun _ => hold _ (by omega)) fun _ => hnew _ (by omega))
  have hleft : readV u (leftOf n p) = if p = 0 then readV v (n - 1) else readV v' (p - 1) :=
    (apply_ite (readV u) ..).trans (ite_congr rfl (fun _ => hold _ (by omega)) fun _ => hnew _ (by omega))
  rw [hword, hright, hleft, encMix]

/-- Between rounds word 0 is next. -/
theorem encRounds_eq_encAt (k : KeyWords) (v : List Word) (n r : Nat) : encRounds k n r (encStart v n) =
    encAt n (BitVec.ofNat 32 r * delta) (encRounds k n r (encStart v n)).v 0 := by
  rw [← encRounds_sum k v n r]
  cases r with
  | zero => rfl
  | succ r => rw [encRounds_succ']; rfl

theorem encRounds_succ_v (k : KeyWords) (v : List Word) {n : Nat} (hn : 1 ≤ n) (r : Nat) :
    (encRounds k n (r + 1) (encStart v n)).v =
      (List.range n).foldl (updateWord (encMix k (BitVec.ofNat 32 (r + 1) * delta)) n)
        (encRounds k n r (encStart v n)).v := by
  calc (encRounds k n (r + 1) (encStart v n)).v
      = (encRound k n (encAt n (BitVec.ofNat 32 r * delta) (encRounds k n r (encStart v n)).v 0)).v := by
        rw [encRounds_succ', ← encRounds_eq_encAt]
    _ = _ := by rw [encRound_encAt k _ _ hn, encAt_v, ofNat_succ_mul_delta]

/-- Settles O32: the arrays are those after each round of the model, a round being an upward pass. -/
theorem encryptionIsItsRounds : Obligations.EncryptionIsItsRounds := fun v n k hn hv =>
  ⟨fun r => (encRounds k n r (encStart v n)).v, rfl, rfl, fun r _ =>
    encRoundRel_of_pass hn ((encRounds_length ..).trans hv) (encRounds_succ_v k v (by omega) r)⟩

/-! ## Decryption is its rounds (R95) -/

/-- The working registers of `BTEA_DEC` when word `p` is next: `Y` is the right neighbour. -/
def decAt (n : Nat) (sum : Word) (v : List Word) (p : Nat) : DecWork :=
  { v := v, sum := sum, y := readV v (rightOf n p) }

/-- The words in the order of a decryption round: `P` from N-1 downto 1, then 0. -/
def downwards (n : Nat) : List Nat := (List.range n).map fun j => n - 1 - j

theorem mem_downwards {n p : Nat} (h : p < n) : p ∈ downwards n :=
  List.mem_map.mpr ⟨n - 1 - p, List.mem_range.mpr (by omega), by omega⟩

theorem pairwise_downwards (n : Nat) : (downwards n).Pairwise (· > ·) := by
  refine List.pairwise_map.mpr (List.pairwise_lt_range.imp_of_mem fun hi hj hlt => ?_)
  rw [List.mem_range] at hi hj
  omega

section Decryption

variable (k : KeyWords) {n : Nat} (sum : Word) (v : List Word)

@[simp] theorem decAt_v (p : Nat) : (decAt n sum v p).v = v := rfl
@[simp] theorem decAt_sum (p : Nat) : (decAt n sum v p).sum = sum := rfl

theorem decWord_decAt {p : Nat} (h0 : 0 < p) (h : p < n) : decWord k (selector sum) (decAt n sum v p) p =
    decAt n sum (updateWord (decMix k sum) n v p) (p - 1) := by
  have hne : p ≠ 0 := by omega
  simp [decWord, decAt, updateWord, decMix, leftOf, rightOf, Nat.sub_add_cancel h0, h, hne]

theorem decLast_decAt (h : 1 ≤ n) : decLast k n (selector sum) (decAt n sum v 0) =
    decAt n sum (updateWord (decMix k sum) n v 0) (n - 1) := by
  simp [decLast, decAt, updateWord, decMix, leftOf, rightOf, Nat.sub_add_cancel h]

theorem foldl_decWord_decAt {m : Nat} (h : m < n) :
    ((List.range m).map fun j => n - 1 - j).foldl (decWord k (selector sum)) (decAt n sum v (n - 1)) =
      decAt n sum (((List.range m).map fun j => n - 1 - j).foldl (updateWord (decMix k sum) n) v) (n - 1 - m) := by
  induction m with
  | zero => rfl
  | succ m ih =>
    rw [List.range_succ, List.map_append, List.map_singleton, List.foldl_concat, List.foldl_concat,
      ih (by omega), decWord_decAt k sum _ (by omega) (by omega), Nat.sub_sub _ m 1]

/-- A decryption round visits the words downwards; `SUM` falls at its end. -/
theorem decRound_decAt (h : 1 ≤ n) : decRound k n (decAt n sum v (n - 1)) =
    decAt n (sum - delta) ((downwards n).foldl (updateWord (decMix k sum) n) v) (n - 1) := by
  have horder : downwards n = ((List.range (n - 1)).map fun j => n - 1 - j) ++ [0] := by
    obtain ⟨m, rfl⟩ := Nat.exists_eq_add_of_le' h
    simp [downwards, List.range_succ]
  simp only [decRound, decAt_sum, foldl_decWord_decAt k sum v (Nat.sub_lt h Nat.one_pos), Nat.sub_self,
    decLast_decAt k sum _ h, horder, List.foldl_concat]
  rfl

end Decryption

/-- In a downward pass the words above `p` are the new ones. -/
theorem decRoundRel_of_pass {k : KeyWords} {n : Nat} {sum : Word} {v v' : List Word} (hn : 2 ≤ n) (hv : v.length = n)
    (hpass : v' = (downwards n).foldl (updateWord (decMix k sum) n) v) : DecRoundRel k n sum v v' := by
  refine ⟨by rw [hpass, foldl_updateWord_length, hv], fun p hp => ?_⟩
  obtain ⟨u, hnew, hold, hword⟩ :=
    exists_readV_of_pass (pairwise_downwards n) hpass (mem_downwards hp) (hv ▸ hp)
  have hright : readV u (rightOf n p) = if p + 1 < n then readV v' (p + 1) else readV v 0 :=
    (apply_ite (readV u) ..).trans (ite_congr rfl (fun _ => hnew _ (by omega)) fun _ => hold _ (by omega))
  have hleft : readV u (leftOf n p) = if p = 0 then readV v' (n - 1) else readV v (p - 1) :=
    (apply_ite (readV u) ..).trans (ite_congr rfl (fun _ => hnew _ (by omega)) fun _ => hold _ (by omega))
  rw [hword, hright, hleft, decMix]

/-- Between rounds the last word is next. -/
theorem decRounds_eq_decAt (k : KeyWords) (v : List Word) {n r : Nat} (hn : 1 ≤ n) (hr : r ≤ rounds n) :
    decRounds k n r (decStart v n) =
      decAt n (BitVec.ofNat 32 (rounds n - r) * delta) (decRounds k n r (decStart v n)).v (n - 1) := by
  have hright : rightOf n (n - 1) = 0 := if_neg (by omega)
  rw [← decRounds_sum k v n r hr, decAt, hright]
  cases r with
  | zero => rfl
  | succ r => rw [decRounds_succ']; rfl

theorem decRounds_succ_v (k : KeyWords) (v : List Word) {n r : Nat} (hn : 1 ≤ n) (hr : r ≤ rounds n) :
    (decRounds k n (r + 1) (decStart v n)).v =
      (downwards n).foldl (updateWord (decMix k (BitVec.ofNat 32 (rounds n - r) * delta)) n)
        (decRounds k n r (decStart v n)).v := by
  calc (decRounds k n (r + 1) (decStart v n)).v
      = (decRound k n (decAt n (BitVec.ofNat 32 (rounds n - r) * delta)
          (decRounds k n r (decStart v n)).v (n - 1))).v := by
        rw [decRounds_succ', ← decRounds_eq_decAt k v hn hr]
    _ = _ := by rw [decRound_decAt k _ _ hn, decAt_v]

/-- Settles O33: the arrays are those after each round of the model, a round being a downward pass. -/
theorem decryptionIsItsRounds : Obligations.DecryptionIsItsRounds := by
  intro v n k hn hv
  refine ⟨⟨fun r => (decRounds k n r (decStart v n)).v, rfl, rfl, fun r hr => ?_⟩, ?_⟩
  · exact decRoundRel_of_pass hn ((decRounds_length ..).trans hv) (decRounds_succ_v k v (by omega) hr.le)
  · rw [decRounds_sum k v n _ le_rfl, Nat.sub_self]
    rfl

/-! ## The commands `CENC` and `CDEC` (R97, R98) -/

theorem rawLengthOk_iff (c : Config) (len : Nat) :
    rawLengthOk c len = true ↔ len % 4 = 0 ∧ 8 ≤ len ∧ len ≤ c.dmax := decide_eq_true_iff

theorem rawLengthOk_eq_false {c : Config} {len : Nat} (h : len % 4 ≠ 0 ∨ len < 8 ∨ c.dmax < len) :
    rawLengthOk c len = false := by
  rw [← Bool.not_eq_true, rawLengthOk_iff]; omega

/-- What the cipher commands have in common: the key check, then the operand check `ok`, then `f` of
the key as the answer. -/
def answerChecked (ok : Config → Bool) (f : Bytes → Bytes) (s : State) : Result :=
  withKey s fun key => if ok s.cfg then respondOk (f key) s else raise .badLength s

theorem exec_cenc_eq_answerChecked (b : Bytes) :
    exec (.cenc b) = answerChecked (rawLengthOk · b.length) (cipherEncrypt b) := rfl

theorem exec_cdec_eq_answerChecked (b : Bytes) :
    exec (.cdec b) = answerChecked (rawLengthOk · b.length) (cipherDecrypt b) := rfl

section Outcomes

variable {ok : Config → Bool} {f : Bytes → Bytes} {s : State} {k : Bytes}

theorem answerChecked_of_no_key (hk : s.key = none) :
    answerChecked ok f s = .next { s with rsp := some [0x01, 0x00, 0x00] } :=
  (withKey_none hk _).trans (raise_eq .keyNotSet s)

theorem answerChecked_of_not_ok (hk : s.key = some k) (h : ok s.cfg = false) :
    answerChecked ok f s = .next { s with rsp := some [0x03, 0x00, 0x00] } := by
  rw [answerChecked, withKey_some hk, if_neg (Bool.eq_false_iff.mp h)]
  exact raise_eq .badLength s

theorem answerChecked_of_ok (hk : s.key = some k) (h : ok s.cfg = true) :
    answerChecked ok f s = .next { s with rsp := some (Response.frame { status := .ok, payload := f k }) } := by
  rw [answerChecked, withKey_some hk, if_pos h, respondOk_eq]

end Outcomes

/-- The example of R97. -/
theorem cipherEncrypt_zero : cipherEncrypt (List.replicate 8 0x00) (List.replicate 16 0x00) =
    [0xAB, 0x04, 0x37, 0x05, 0x80, 0x8C, 0x5D, 0x57] := by decide +kernel

/-- The example of R98. -/
theorem cipherDecrypt_example :
    cipherDecrypt [0xAB, 0x04, 0x37, 0x05, 0x80, 0x8C, 0x5D, 0x57] (List.replicate 16 0x00) =
      List.replicate 8 0x00 := by decide +kernel

/-- Settles O35: the key check comes first, then the length check, then the cipher. -/
theorem cencAnswersTheCiphertext : Obligations.CencAnswersTheCiphertext := by
  intro s b
  rw [exec_cenc_eq_answerChecked b]
  refine ⟨rfl, fun hk => ?_, fun k hk hlen => ?_, fun k hk h4 h8 hmax => ?_, fun hmax hk => ?_⟩
  · exact answerChecked_of_no_key hk
  · exact answerChecked_of_not_ok hk (rawLengthOk_eq_false hlen)
  · exact ⟨cipherEncrypt b k, answerChecked_of_ok hk ((rawLengthOk_iff ..).mpr ⟨h4, h8, hmax⟩), rfl,
      (cipherEncrypt_length b k).trans (Nat.mul_div_cancel' (Nat.dvd_of_mod_eq_zero h4))⟩
  · have hlen : rawLengthOk s.cfg (List.replicate 8 (0x00 : Byte)).length = true :=
      (rawLengthOk_iff ..).mpr ⟨rfl, le_rfl, hmax⟩
    rw [exec_cenc_eq_answerChecked, answerChecked_of_ok hk hlen, cipherEncrypt_zero]
    rfl

/-- Settles O36: the key check comes first, then the length check, then the cipher. -/
theorem cdecAnswersThePlaintext : Obligations.CdecAnswersThePlaintext := by
  intro s b
  rw [exec_cdec_eq_answerChecked b]
  refine ⟨rfl, fun hk => ?_, fun k hk hlen => ?_, fun k hk h4 h8 hmax => ?_, fun hmax hk => ?_⟩
  · exact answerChecked_of_no_key hk
  · exact answerChecked_of_not_ok hk (rawLengthOk_eq_false hlen)
  · exact ⟨cipherDecrypt b k, answerChecked_of_ok hk ((rawLengthOk_iff ..).mpr ⟨h4, h8, hmax⟩), rfl,
      (cipherDecrypt_length b k).trans (Nat.mul_div_cancel' (Nat.dvd_of_mod_eq_zero h4))⟩
  · have hlen : rawLengthOk s.cfg [(0xAB : Byte), 0x04, 0x37, 0x05, 0x80, 0x8C, 0x5D, 0x57].length = true :=
      (rawLengthOk_iff ..).mpr ⟨rfl, le_rfl, hmax⟩
    rw [exec_cdec_eq_answerChecked, answerChecked_of_ok hk hlen, cipherDecrypt_example]
    rfl

end Sys2Proof.Machine

/-! # Proofs: the envelope commands `ENC` and `DEC` (43_envelope.md). -/

namespace Sys2Proof.Machine

theorem envelopeLengthOk_iff (c : Config) (len : Nat) :
    envelopeLengthOk c len = true ↔ 8 ≤ padlen len ∧ padlen len ≤ c.dmax := decide_eq_true_iff

theorem envelopeLengthOk_eq_false {c : Config} {len : Nat} (h : padlen len < 8 ∨ c.dmax < padlen len) :
    envelopeLengthOk c len = false := by
  rw [← Bool.not_eq_true, envelopeLengthOk_iff]; omega

theorem exec_enc_eq_answerChecked (b : Bytes) :
    exec (.enc b) = answerChecked (envelopeLengthOk · b.length) (encrypt b) := rfl

theorem exec_dec_eq_answerChecked (b : Bytes) :
    exec (.dec b) = answerChecked (envelopeLengthOk · b.length) (decrypt b) := rfl

/-! ## The pipelines written out (R120, R121) -/

theorem encrypt_eq (b key : Bytes) : encrypt b key =
    transform (bytesLe (bteaEnc (wordsLe (transform b)) (padlen b.length / 4) (keywords key))) := by
  rw [encrypt, cipherEncrypt, transform_length]

theorem decrypt_eq (b key : Bytes) : decrypt b key =
    transform (bytesLe (bteaDec (wordsLe (transform b)) (padlen b.length / 4) (keywords key))) := by
  rw [decrypt, cipherDecrypt, transform_length]

/-- A padded length is a whole number of words, so the outer transform adds no padding. -/
theorem padlen_words_padlen (l : Nat) : padlen (4 * (padlen l / 4)) = padlen l := by
  rw [Nat.mul_div_cancel' (Nat.dvd_of_mod_eq_zero (padlen_mod l)), padlen_padlen]

theorem encrypt_length (b key : Bytes) : (encrypt b key).length = padlen b.length := by
  rw [encrypt, transform_length, cipherEncrypt_length, transform_length, padlen_words_padlen]

theorem decrypt_length (b key : Bytes) : (decrypt b key).length = padlen b.length := by
  rw [decrypt, transform_length, cipherDecrypt_length, transform_length, padlen_words_padlen]

/-- The example of R122. -/
theorem encrypt_example :
    encrypt [0x2A, 0x2C, 0x00, 0x00, 0x00, 0x00, 0x00, 0x00]
      [0x00, 0x01, 0x02, 0x03, 0x04, 0x05, 0x06, 0x07, 0x08, 0x09, 0x0A, 0x0B, 0x0C, 0x0D, 0x0E, 0x0F] =
      [0x35, 0xC4, 0xB1, 0x30, 0x14, 0xAF, 0x9C, 0xEE] := by decide +kernel

/-- The example of R123. -/
theorem decrypt_example :
    decrypt [0x35, 0xC4, 0xB1, 0x30, 0x14, 0xAF, 0x9C, 0xEE]
      [0x00, 0x01, 0x02, 0x03, 0x04, 0x05, 0x06, 0x07, 0x08, 0x09, 0x0A, 0x0B, 0x0C, 0x0D, 0x0E, 0x0F] =
      [0x2A, 0x2C, 0x00, 0x00, 0x00, 0x00, 0x00, 0x00] := by decide +kernel

/-! ## The two rules (R122, R123) -/

/-- Settles O37: the key check comes first, then the check of the padded length, then the envelope. -/
theorem encAnswersTheEnvelope : Obligations.EncAnswersTheEnvelope := by
  intro s b
  rw [exec_enc_eq_answerChecked b]
  refine ⟨rfl, fun hk => ?_, fun k hk hlen => ?_, fun k hk h8 hmax => ?_, fun hmax hk => ?_⟩
  · exact answerChecked_of_no_key hk
  · exact answerChecked_of_not_ok hk (envelopeLengthOk_eq_false hlen)
  · exact ⟨encrypt b k, answerChecked_of_ok hk ((envelopeLengthOk_iff ..).mpr ⟨h8, hmax⟩), encrypt_eq b k,
      encrypt_length b k⟩
  · have hlen : envelopeLengthOk s.cfg [(0x2A : Byte), 0x2C, 0x00, 0x00, 0x00, 0x00, 0x00, 0x00].length = true :=
      (envelopeLengthOk_iff ..).mpr ⟨le_rfl, hmax⟩
    rw [exec_enc_eq_answerChecked, answerChecked_of_ok hk hlen, encrypt_example]
    rfl

/-- Settles O38: the key check comes first, then the check of the padded length, then the envelope. -/
theorem decAnswersTheOpenedEnvelope : Obligations.DecAnswersTheOpenedEnvelope := by
  intro s b
  rw [exec_dec_eq_answerChecked b]
  refine ⟨rfl, fun hk => ?_, fun k hk hlen => ?_, fun k hk h8 hmax => ?_, fun hmax hk => ?_⟩
  · exact answerChecked_of_no_key hk
  · exact answerChecked_of_not_ok hk (envelopeLengthOk_eq_false hlen)
  · exact ⟨decrypt b k, answerChecked_of_ok hk ((envelopeLengthOk_iff ..).mpr ⟨h8, hmax⟩), decrypt_eq b k,
      decrypt_length b k⟩
  · have hlen : envelopeLengthOk s.cfg [(0x35 : Byte), 0xC4, 0xB1, 0x30, 0x14, 0xAF, 0x9C, 0xEE].length = true :=
      (envelopeLengthOk_iff ..).mpr ⟨le_rfl, hmax⟩
    rw [exec_dec_eq_answerChecked, answerChecked_of_ok hk hlen, decrypt_example]
    rfl

end Sys2Proof.Machine

/-! # Proofs: the fault table. What a frame is answered with and what it leaves, read from its bytes
(60_exceptions.md). -/

namespace Sys2Proof.Machine

open Sys2Proof.Safety

/-! ## The fault table by command (R141, R143) -/

/-- The rows of the commands that need the key: the key check comes before that of the length. -/
def keyedStatus (keyv : Bool) (badLength : Prop) [Decidable badLength] : Status :=
  if keyv = false then .keyNotSet else if badLength then .badLength else .ok

theorem keyedStatus_true (badLength : Prop) [Decidable badLength] :
    keyedStatus true badLength = if badLength then .badLength else .ok := rfl

/-- The rows of the table that are left once a frame has decoded to a command. -/
def commandStatus (c : Config) (keyv : Bool) : Instr → Status
  | .setkey p => if p.length = 0 ∨ c.kmax < p.length then .invalidKey else .ok
  | .getkey p => keyedStatus keyv (p.length ≠ 0)
  | .xform p => if c.dmax < padlen p.length then .badLength else .ok
  | .cenc p | .cdec p => keyedStatus keyv (p.length % 4 ≠ 0 ∨ p.length < 8 ∨ c.dmax < p.length)
  | .enc p | .dec p => keyedStatus keyv (padlen p.length < 8 ∨ c.dmax < padlen p.length)

section Table

variable (c : Config) (keyv : Bool)

theorem frameStatus_of_malformed {f : Bytes} (h : Malformed f) : frameStatus c keyv f = .badFrame := if_pos h

theorem frameStatus_of_unassigned {f : Bytes} (hf : ¬ Malformed f) (h : ¬ Assigned f) :
    frameStatus c keyv f = .illegalOp := (if_neg hf).trans (if_pos h)

/-- On a command's frame the rows of the two decoding faults do not apply; of the others, its opcode
selects those of the command. -/
theorem frameStatus_encode {i : Instr} (h : i.WellFormed) :
    frameStatus c keyv (encode i) = commandStatus c keyv i := by
  obtain ⟨hframed, hop⟩ := exists_decodeFrame_eq_command_iff_assigned.mp ⟨i, decodeFrame_encode h⟩
  have hopc : (encode i).getD 0 0 = opcode i := rfl
  have hlen : (encode i).length - 3 = i.payload.length := by rw [encode_length, Nat.add_sub_cancel_left]
  simp only [frameStatus, if_neg hframed, if_neg (not_not.mpr hop), hopc, hlen]
  cases i <;> simp [commandStatus, keyedStatus, opcode, Instr.payload]

end Table

/-! ## What the table makes of a frame -/

/-- The state with the response and the key register that the table gives for the frame `f`. -/
def State.answered (s : State) (f : Bytes) : State :=
  { s with key := keyAfter s.cfg s.key f, rsp := some (answer s.cfg s.key f).frame }

/-- What the status `st` makes of a command: `done` with `OK`, any other status is raised. -/
def answerAs (s : State) (done : Result) (st : Status) : Result := if st = .ok then done else raise st s

/-- What a command does that completes: a `SETKEY` loads its payload, the others answer theirs. -/
def completed (s : State) (f : Bytes) : Result :=
  respondOk (okPayload (s.key.getD []) f)
    { s with key := if (f.getD 0 0).toNat = 1 then some (f.drop 3) else s.key }

theorem answerAs_ite (s : State) (done : Result) (p : Prop) [Decidable p] (a b : Status) :
    answerAs s done (if p then a else b) = if p then answerAs s done a else answerAs s done b :=
  apply_ite ..

theorem answerAs_frameStatus (s : State) (f : Bytes) :
    answerAs s (completed s f) (frameStatus s.cfg s.keyv f) = .next (s.answered f) := by
  have hkeyv : s.key.isSome = s.keyv := rfl
  by_cases h : frameStatus s.cfg s.keyv f = .ok
  · simp [answerAs, completed, respondOk_eq, State.answered, answer, keyAfter, hkeyv, h]
  · simp [answerAs, raise_eq, State.answered, answer, keyAfter, hkeyv, h, emptyResponse_frame]

/-! ## Every command makes the checks of its rows -/

theorem rawLengthOk_eq_false_iff (c : Config) (len : Nat) :
    rawLengthOk c len = false ↔ len % 4 ≠ 0 ∨ len < 8 ∨ c.dmax < len := by
  rw [← Bool.not_eq_true, rawLengthOk_iff]; omega

theorem envelopeLengthOk_eq_false_iff (c : Config) (len : Nat) :
    envelopeLengthOk c len = false ↔ padlen len < 8 ∨ c.dmax < padlen len := by
  rw [← Bool.not_eq_true, envelopeLengthOk_iff]; omega

/-- The commands that need the key make the table's two checks in the table's order. -/
theorem answerChecked_eq_answerAs (ok : Config → Bool) {s : State} {badLength : Prop} [Decidable badLength]
    (h : ok s.cfg = false ↔ badLength) (f : Bytes → Bytes) :
    answerChecked ok f s =
      answerAs s (respondOk (f (s.key.getD [])) s) (keyedStatus s.keyv badLength) := by
  cases hk : s.key with
  | none => rw [State.keyv_none s hk]; exact withKey_none hk _
  | some k =>
    rw [State.keyv_some s k hk, answerChecked, withKey_some hk, keyedStatus_true, answerAs_ite]
    by_cases hbad : badLength
    · rw [h.mpr hbad, if_pos hbad]; rfl
    · rw [(Bool.not_eq_false _).mp (mt h.mp hbad), if_neg hbad]; rfl

theorem exec_getkey_eq_answerChecked (p : Bytes) :
    exec (.getkey p) = answerChecked (fun _ => p.isEmpty) id := by
  cases p with
  | nil => rfl
  | cons => rfl

theorem exec_eq_answerAs (i : Instr) (s : State) :
    exec i s = answerAs s (completed s (encode i)) (commandStatus s.cfg s.keyv i) := by
  cases i with
  | setkey p => rw [commandStatus, answerAs_ite]; rfl
  | getkey p =>
    rw [exec_getkey_eq_answerChecked]
    exact answerChecked_eq_answerAs _ (by simp) id
  | xform p => rw [commandStatus, answerAs_ite]; rfl
  | cenc p => exact answerChecked_eq_answerAs (rawLengthOk · p.length) (rawLengthOk_eq_false_iff ..) (cipherEncrypt p)
  | cdec p => exact answerChecked_eq_answerAs (rawLengthOk · p.length) (rawLengthOk_eq_false_iff ..) (cipherDecrypt p)
  | enc p => exact answerChecked_eq_answerAs (envelopeLengthOk · p.length) (envelopeLengthOk_eq_false_iff ..) (encrypt p)
  | dec p => exact answerChecked_eq_answerAs (envelopeLengthOk · p.length) (envelopeLengthOk_eq_false_iff ..) (decrypt p)

/-! ## Every frame is answered by the table -/

theorem runFrame_eq_answered (f : Bytes) (s : State) : runFrame f s = .next (s.answered f) := by
  rw [← answerAs_frameStatus]
  cases h : decodeFrame f with
  | command i =>
    obtain ⟨hi, rfl⟩ := encode_of_decodeFrame h
    rw [runFrame_command h, exec_eq_answerAs, frameStatus_encode _ _ hi]
  | badFrame =>
    rw [runFrame_badFrame h, frameStatus_of_malformed _ _ (decodeFrame_eq_badFrame.mp h)]
    rfl
  | illegalOp =>
    obtain ⟨hframed, hop⟩ := decodeFrame_eq_illegalOp.mp h
    rw [runFrame_illegalOp h, frameStatus_of_unassigned _ _ hframed hop]
    rfl

/-- One step with a frame at the head of the port: its host gets the table's response, the key
register is the table's, and that one event is gone. -/
theorem step_eq_answer {s : State} {h : Nat} {f : Bytes} {es : List Event} (hp : s.port = .command h f :: es) :
    step s = .next { s with
      key := keyAfter s.cfg s.key f, port := es, rsp := none
      delivered := s.delivered ++ [{ host := h, frame := (answer s.cfg s.key f).frame }] } := by
  rw [step_command hp, runFrame_eq_answered, deliverTo_next, State.deliver_some _ _ h rfl]
  rfl

/-! ## Faults and completions (R144) -/

section Outcomes

variable {c : Config} {key : Option Bytes} {f : Bytes}

theorem answer_of_fault (h : frameStatus c key.isSome f ≠ .ok) :
    answer c key f = { status := frameStatus c key.isSome f, payload := [] } := by
  simp only [answer, if_neg h]

theorem answer_of_ok (h : frameStatus c key.isSome f = .ok) :
    answer c key f = { status := .ok, payload := okPayload (key.getD []) f } := by
  simp only [answer, h, if_true]

theorem keyAfter_of_fault (h : frameStatus c key.isSome f ≠ .ok) : keyAfter c key f = key :=
  if_neg fun hok => h hok.2

end Outcomes

/-- Settles O10: the key register left and the response are those of the table. -/
theorem everyCommandIsAnsweredOnce : Obligations.EveryCommandIsAnsweredOnce :=
  fun s _ f _ hp => ⟨keyAfter s.cfg s.key f, answer s.cfg s.key f, step_eq_answer hp⟩

/-- Settles O15: a step delivers the table's response, which carries the table's status and a payload
only with `OK`. -/
theorem faultsFollowTheTableAndItsPriority : Obligations.FaultsFollowTheTableAndItsPriority := by
  refine fun s h f es hp => ⟨fun hfault => ?_, fun hok => ?_⟩
  · rw [step_eq_answer hp, answer_of_fault hfault, keyAfter_of_fault hfault, emptyResponse_frame]
    rfl
  · exact ⟨keyAfter s.cfg s.key f, okPayload (s.key.getD []) f, by rw [step_eq_answer hp, answer_of_ok hok]⟩

end Sys2Proof.Machine

/-! # Proofs: one step. What each kind of event does, and the invariant that every step keeps
(10_state.md; 70_reset_and_hazards.md). -/

namespace Sys2Proof.Machine

open Sys2Proof.Safety

/-! ## What a step does, event by event -/

theorem step_of_no_event {s : State} (hp : s.port = []) : step s = .next s := by
  simp only [step, hp]

theorem step_of_reset {s : State} {e : Event} {es : List Event} (hp : s.port = e :: es)
    (he : e = .reset ∨ ∃ h f, e = .resetDuring h f) :
    step s = .next { s with port := es, key := none, rsp := none } := by
  obtain rfl | ⟨h, f, rfl⟩ := he <;> simp [step, hp, State.takeEvent, State.resetEvent]

/-- All that a step can do: wait, answer a frame by the fault table, or reset. -/
theorem step_cases {s t : State} (hstep : step s = .next t) :
    (s.port = [] ∧ t = s) ∨
    (∃ h f es, s.port = .command h f :: es ∧ t = { s with
      key := keyAfter s.cfg s.key f, port := es, rsp := none
      delivered := s.delivered ++ [{ host := h, frame := (answer s.cfg s.key f).frame }] }) ∨
    (∃ e es, s.port = e :: es ∧ (e = .reset ∨ ∃ h f, e = .resetDuring h f) ∧
      t = { s with port := es, key := none, rsp := none }) := by
  have next_inj : ∀ {u : State}, step s = .next u → t = u := fun hu => by
    rw [hstep] at hu; exact Host.Outcome.next.inj hu
  match hp : s.port with
  | [] => exact .inl ⟨rfl, next_inj (step_of_no_event hp)⟩
  | .command h f :: es => exact .inr (.inl ⟨h, f, es, rfl, next_inj (step_eq_answer hp)⟩)
  | .reset :: es => exact .inr (.inr ⟨_, es, rfl, .inl rfl, next_inj (step_of_reset hp (.inl rfl))⟩)
  | .resetDuring h f :: es =>
    exact .inr (.inr ⟨_, es, rfl, .inr ⟨h, f, rfl⟩, next_inj (step_of_reset hp (.inr ⟨h, f, rfl⟩))⟩)

/-- Settles O12: no event, no change. -/
theorem quiescentBlockWaits : Obligations.QuiescentBlockWaits := fun _ => step_of_no_event

/-- Settles O11: both reset events are one and the same update of the state. -/
theorem resetForgetsTheKey : Obligations.ResetForgetsTheKey := by
  rintro s h f es (hp | hp)
  · exact step_of_reset hp (.inl rfl)
  · exact step_of_reset hp (.inr ⟨h, f, rfl⟩)

/-- Settles O9: the command's own execution leaves the table's response, which the step delivers. -/
theorem stepRunsTheDecodedCommand : Obligations.StepRunsTheDecodedCommand := by
  intro s h f es i hp hf
  have hexec : exec i { s with port := es } = .next (State.answered { s with port := es } f) := by
    rw [← runFrame_command hf, runFrame_eq_answered]
  refine ⟨_, (answer s.cfg s.key f).frame, hexec, rfl, ?_⟩
  rw [step_command hp, runFrame_command hf, hexec, deliverTo_next, State.deliver_some _ _ h rfl]

/-! ## The key register a frame leaves (40_key.md R70, R73) -/

theorem exists_command_of_frameStatus_ok {c : Config} {keyv : Bool} {f : Bytes} (h : frameStatus c keyv f = .ok) :
    ∃ i : Instr, decodeFrame f = .command i ∧ encode i = f ∧ commandStatus c keyv i = .ok := by
  cases hf : decodeFrame f with
  | command i =>
    obtain ⟨hi, rfl⟩ := encode_of_decodeFrame hf
    exact ⟨i, rfl, rfl, frameStatus_encode c keyv hi ▸ h⟩
  | badFrame =>
    rw [frameStatus_of_malformed c keyv (decodeFrame_eq_badFrame.mp hf)] at h
    cases h
  | illegalOp =>
    obtain ⟨hframed, hop⟩ := decodeFrame_eq_illegalOp.mp hf
    rw [frameStatus_of_unassigned c keyv hframed hop] at h
    cases h

theorem commandStatus_setkey_eq_ok {c : Config} {keyv : Bool} {p : Bytes} :
    commandStatus c keyv (.setkey p) = .ok ↔ 1 ≤ p.length ∧ p.length ≤ c.kmax := by
  simp only [commandStatus]
  split
  · simp; omega
  · simp; omega

theorem eq_setkey_of_opcode {i : Instr} (h : (opcode i).toNat = 1) : ∃ p, i = .setkey p := by
  cases i with
  | setkey p => exact ⟨p, rfl⟩
  | getkey | xform | cenc | cdec | enc | dec => simp [opcode] at h

/-- A frame leaves the key register as it was, or it is a `SETKEY` of legal length and loads its payload. -/
theorem keyAfter_cases (c : Config) (key : Option Bytes) (f : Bytes) :
    keyAfter c key f = key ∨
    ∃ p, decodeFrame f = .command (.setkey p) ∧ 1 ≤ p.length ∧ p.length ≤ c.kmax ∧
      keyAfter c key f = some p := by
  by_cases h : (f.getD 0 0).toNat = 1 ∧ frameStatus c key.isSome f = .ok
  · obtain ⟨i, hf, rfl, hok⟩ := exists_command_of_frameStatus_ok h.2
    obtain ⟨p, rfl⟩ := eq_setkey_of_opcode h.1
    obtain ⟨h1, h2⟩ := commandStatus_setkey_eq_ok.mp hok
    exact .inr ⟨p, hf, h1, h2, if_pos h⟩
  · exact .inl (if_neg h)

theorem keyAfter_of_not_setkey (c : Config) (key : Option Bytes) {f : Bytes}
    (h : ∀ p, decodeFrame f ≠ .command (.setkey p)) : keyAfter c key f = key :=
  (keyAfter_cases c key f).resolve_right fun ⟨p, hf, _⟩ => h p hf

/-- Settles O13: of the three things a step can do, a frame writes the key register by the table and
a reset clears it. -/
theorem onlySetkeyAndResetWriteTheKey : Obligations.OnlySetkeyAndResetWriteTheKey := by
  intro s t hstep
  obtain ⟨-, rfl⟩ | ⟨h, f, es, hp, rfl⟩ | ⟨e, es, hp, he, rfl⟩ := step_cases hstep
  · exact ⟨rfl, .inl rfl⟩
  · refine ⟨rfl, (keyAfter_cases s.cfg s.key f).imp_right fun ⟨p, hf, h1, h2, hkey⟩ => .inr ?_⟩
    exact ⟨h, f, p, by rw [hp]; rfl, hf, h1, h2, hkey⟩
  · refine ⟨rfl, .inr (.inl ⟨rfl, ?_⟩)⟩
    rw [hp, List.head?_cons]
    exact he.imp (congrArg some) fun ⟨h, f, heq⟩ => ⟨h, f, congrArg some heq⟩

/-! ## The invariant (10_state.md R12, R18; 70_reset_and_hazards.md R183) -/

theorem keyedStatus_eq_ok {keyv : Bool} {badLength : Prop} [Decidable badLength] :
    keyedStatus keyv badLength = .ok ↔ keyv = true ∧ ¬ badLength := by
  cases keyv with
  | false => simp [keyedStatus]
  | true => simp [keyedStatus_true]

theorem keyLegal_keyAfter {c : Config} {key : Option Bytes} (h : KeyLegal c key) (f : Bytes) :
    KeyLegal c (keyAfter c key f) := by
  obtain hsame | ⟨p, -, h1, h2, hp⟩ := keyAfter_cases c key f
  · rwa [hsame]
  · rw [hp]
    rintro k ⟨⟩
    exact ⟨h1, h2⟩

/-- What a command answers that completes: `GETKEY` the key, the others at most DMAX bytes. -/
theorem okPayload_length_le {c : Config} {key : Option Bytes} (hkey : KeyLegal c key) {i : Instr}
    (hok : commandStatus c key.isSome i = .ok) :
    (okPayload (key.getD []) (encode i)).length ≤ max c.dmax c.kmax := by
  cases i with
  | setkey p => exact Nat.zero_le _
  | getkey p =>
    obtain ⟨k, rfl⟩ := Option.isSome_iff_exists.mp (keyedStatus_eq_ok.mp hok).1
    exact le_max_of_le_right (hkey k rfl).2
  | xform p =>
    have hlen : padlen p.length ≤ c.dmax := by
      by_contra hlt
      simp [commandStatus, Nat.lt_of_not_le hlt] at hok
    exact le_max_of_le_left ((transform_length p).trans_le hlen)
  | cenc p =>
    obtain ⟨-, hlen⟩ := keyedStatus_eq_ok.mp hok
    exact le_max_of_le_left ((cipherEncrypt_length p _).trans_le (by omega))
  | cdec p =>
    obtain ⟨-, hlen⟩ := keyedStatus_eq_ok.mp hok
    exact le_max_of_le_left ((cipherDecrypt_length p _).trans_le (by omega))
  | enc p =>
    obtain ⟨-, hlen⟩ := keyedStatus_eq_ok.mp hok
    exact le_max_of_le_left ((encrypt_length p _).trans_le (by omega))
  | dec p =>
    obtain ⟨-, hlen⟩ := keyedStatus_eq_ok.mp hok
    exact le_max_of_le_left ((decrypt_length p _).trans_le (by omega))

theorem answer_payload_length_le {c : Config} {key : Option Bytes} (hkey : KeyLegal c key) (f : Bytes) :
    (answer c key f).payload.length ≤ max c.dmax c.kmax := by
  by_cases h : frameStatus c key.isSome f = .ok
  · obtain ⟨i, -, rfl, hok⟩ := exists_command_of_frameStatus_ok h
    rw [answer_of_ok h]
    exact okPayload_length_le hkey hok
  · rw [answer_of_fault h]
    exact Nat.zero_le _

theorem responseFrameLegal_answer {c : Config} {key : Option Bytes} (hc : c.Legal) (hkey : KeyLegal c key)
    (f : Bytes) : ResponseFrameLegal c (answer c key f).frame := by
  have hlen := answer_payload_length_le hkey f
  have hwf : (answer c key f).WellFormed :=
    ⟨by obtain ⟨-, hk, -, hd, -⟩ := hc; omega, fun hst => by rw [answer_of_fault hst]⟩
  exact ⟨_, Response.ofFrame_frame hwf, hlen⟩

/-- Settles O8: a frame leaves a legal key and is answered with a legal response frame; a reset leaves
no key and delivers nothing. -/
theorem stepKeepsInvariant : Obligations.StepKeepsInvariant := by
  rintro s t ⟨hcfg, hkey, hrsp, hdel⟩ hstep
  obtain ⟨-, rfl⟩ | ⟨h, f, es, -, rfl⟩ | ⟨e, es, -, -, rfl⟩ := step_cases hstep
  · exact ⟨hcfg, hkey, hrsp, hdel⟩
  · refine ⟨hcfg, keyLegal_keyAfter hkey f, rfl, fun d hd => ?_⟩
    obtain hold | hnew := List.mem_append.mp hd
    · exact hdel d hold
    · rw [List.mem_singleton.mp hnew]
      exact responseFrameLegal_answer hcfg hkey f
  · exact ⟨hcfg, nofun, rfl, hdel⟩

theorem inv_resetOf {c : Config} (h : c.Legal) : Inv (State.resetOf c) := ⟨h, nofun, rfl, nofun⟩

/-- Settles O7: no key, no response and no delivery is there to be illegal. -/
theorem resetMeetsInvariant : Obligations.ResetMeetsInvariant :=
  ⟨fun _ => inv_resetOf, inv_resetOf (by decide)⟩

end Sys2Proof.Machine

/-! # Proofs: frames written out and the layout of response frames (30_encoding.md; 60_exceptions.md R150). -/

namespace Sys2Proof.Machine

/-- Settles O1: the decoder is run on each frame. -/
theorem writtenOutFramesDecode : Obligations.WrittenOutFramesDecode := by
  refine ⟨?_, ?_, ?_, ?_, ?_, ?_, ?_, ?_, ?_, ?_, ?_, ?_⟩ <;> decide

/-! ## The status codes (R57) -/

theorem Status.ofCode_eq_some_iff {c : Byte} {st : Status} : Status.ofCode c = some st ↔ st.code = c :=
  ⟨Status.code_of_ofCode, fun h => h ▸ Status.ofCode_code st⟩

theorem Status.code_lt (st : Status) : st.code.toNat < 6 := by cases st <;> decide

theorem Status.exists_code_eq {c : Byte} (h : c.toNat < 6) : ∃ st : Status, st.code = c := by
  have hcode : ∀ n < 6, ∃ st : Status, st.code = BitVec.ofNat 8 n := by
    intro n hn
    match n, hn with
    | 0, _ => exact ⟨.ok, rfl⟩
    | 1, _ => exact ⟨.keyNotSet, rfl⟩
    | 2, _ => exact ⟨.invalidKey, rfl⟩
    | 3, _ => exact ⟨.badLength, rfl⟩
    | 4, _ => exact ⟨.illegalOp, rfl⟩
    | 5, _ => exact ⟨.badFrame, rfl⟩
  simpa using hcode c.toNat h

/-- The codes are exactly the bytes below 6. -/
theorem Status.ofCode_eq_none_iff {c : Byte} : Status.ofCode c = none ↔ 6 ≤ c.toNat := by
  rw [← Nat.not_lt, Option.eq_none_iff_forall_ne_some]
  refine ⟨fun hnone hlt => ?_, fun hge st hst => hge ?_⟩
  · obtain ⟨st, hst⟩ := Status.exists_code_eq hlt
    exact hnone st (Status.ofCode_eq_some_iff.mpr hst)
  · exact Status.ofCode_eq_some_iff.mp hst ▸ Status.code_lt st

/-- Settles O3: the frame is its header and then the payload; reading a code inverts writing it. -/
theorem responseFrameLayout : Obligations.ResponseFrameLayout :=
  ⟨fun r => ⟨Response.frame_length r, rfl, rfl⟩, rfl, rfl, rfl, rfl, rfl, rfl,
    fun _ => Status.ofCode_eq_none_iff, fun _ _ => Status.ofCode_eq_some_iff⟩

/-- Settles O17: one case per status. -/
theorem docViewOfResponses : Obligations.DocViewOfResponses := by
  rintro ⟨st, p⟩
  cases st with
  | ok => exact ⟨fun _ => rfl, fun h => absurd rfl h⟩
  | keyNotSet | invalidKey | badLength | illegalOp | badFrame => exact ⟨nofun, fun _ => rfl⟩

end Sys2Proof.Machine

/-! # Proofs: commands and the key register. Repeated commands, equivalent keys, and the block after
reset (20_memory.md R37; 40_key.md R72; 70_reset_and_hazards.md R171). -/

namespace Sys2Proof.Machine

/-! ## Repeated commands -/

theorem exec_key_of_not_setkey {i : Instr} (hi : ∀ p, i ≠ .setkey p) {s t : State} (h : exec i s = .next t) :
    t.key = s.key := by
  have heffect := exec_effect i s
  rw [h] at heffect
  cases heffect with
  | ok b => rfl
  | fault st hst => rfl
  | setkey k hk => exact absurd hk (hi k)

theorem exec_setkey_twice (p : Bytes) (s : State) :
    ∃ t, exec (.setkey p) s = .next t ∧ exec (.setkey p) t = .next t := by
  by_cases h : p.length = 0 ∨ s.cfg.kmax < p.length
  · exact ⟨_, exec_setkey_of_invalidLength h, exec_setkey_of_invalidLength h⟩
  · obtain ⟨h1, h2⟩ : 1 ≤ p.length ∧ p.length ≤ s.cfg.kmax := by omega
    exact ⟨_, exec_setkey_of_validLength h1 h2, exec_setkey_of_validLength h1 h2⟩

/-- A command that keeps the key register answers the state it left as it answered the first. -/
theorem exec_twice_of_not_setkey {i : Instr} (hi : ∀ p, i ≠ .setkey p) (s : State) :
    ∃ t, exec i s = .next t ∧ exec i t = .next t := by
  obtain ⟨k, r, hexec⟩ := AnswersAlike.exec s.cfg s.key i
  have hs := hexec s rfl rfl
  exact ⟨_, hs, hexec _ rfl (exec_key_of_not_setkey hi hs)⟩

/-- Settles O20: a `SETKEY` loads the same key again, every other command finds the same key again. -/
theorem commandsAreIdempotent : Obligations.CommandsAreIdempotent := by
  intro s i
  by_cases hi : ∀ p, i ≠ .setkey p
  · obtain ⟨t, hs, ht⟩ := exec_twice_of_not_setkey hi s
    exact ⟨t, hs, ht, fun hi => exec_key_of_not_setkey hi hs⟩
  · push Not at hi
    obtain ⟨p, rfl⟩ := hi
    obtain ⟨t, hs, ht⟩ := exec_setkey_twice p s
    exact ⟨t, hs, ht, fun hi => absurd rfl (hi p)⟩

/-! ## Equivalent keys -/

theorem packLe_inj {a0 a1 a2 a3 b0 b1 b2 b3 : Byte} :
    packLe a0 a1 a2 a3 = packLe b0 b1 b2 b3 ↔ a0 = b0 ∧ a1 = b1 ∧ a2 = b2 ∧ a3 = b3 := by
  refine ⟨fun h => ?_, fun ⟨h0, h1, h2, h3⟩ => by rw [h0, h1, h2, h3]⟩
  simpa [unpackLe_packLe] using congrArg unpackLe h

/-- Packing loses nothing, so a key word says its four bytes. -/
theorem keyWord_eq_iff {k1 k2 : Bytes} {i : Nat} :
    keyWord k1 i = keyWord k2 i ↔ ∀ j < 4, k1.getD (4 * i + j) 0 = k2.getD (4 * i + j) 0 := by
  simp only [keyWord, packLe_inj, keyByte_eq_getD]
  refine ⟨fun ⟨h0, h1, h2, h3⟩ j hj => ?_, fun h => ?_⟩
  · match j, hj with
    | 0, _ => exact h0
    | 1, _ => exact h1
    | 2, _ => exact h2
    | 3, _ => exact h3
  · exact ⟨h 0 (by decide), h 1 (by decide), h 2 (by decide), h 3 (by decide)⟩

theorem keywords_eq_iff_keyWord {k1 k2 : Bytes} :
    keywords k1 = keywords k2 ↔ ∀ i < 4, keyWord k1 i = keyWord k2 i := by
  refine ⟨fun h i hi => ?_, fun h => ?_⟩
  · rw [← keywords_get k1 ⟨i, hi⟩, h, keywords_get]
  · simp only [keywords, h 0 (by decide), h 1 (by decide), h 2 (by decide), h 3 (by decide)]

/-- Byte `j` of a key is in its word `j / 4`. -/
theorem keywords_eq_iff {k1 k2 : Bytes} :
    keywords k1 = keywords k2 ↔ ∀ j < 16, k1.getD j 0 = k2.getD j 0 := by
  simp only [keywords_eq_iff_keyWord, keyWord_eq_iff]
  refine ⟨fun h j hj => ?_, fun h i hi j hj => h _ (by omega)⟩
  have hbyte := h (j / 4) (by omega) (j % 4) (by omega)
  rwa [Nat.div_add_mod] at hbyte

section EquivalentKeys

variable {k1 k2 : Bytes} (h : keywords k1 = keywords k2) (b : Bytes)
include h

theorem cipherEncrypt_congr : cipherEncrypt b k1 = cipherEncrypt b k2 := by rw [cipherEncrypt, h, cipherEncrypt]
theorem cipherDecrypt_congr : cipherDecrypt b k1 = cipherDecrypt b k2 := by rw [cipherDecrypt, h, cipherDecrypt]
theorem encrypt_congr : encrypt b k1 = encrypt b k2 := by rw [encrypt, cipherEncrypt_congr h, encrypt]
theorem decrypt_congr : decrypt b k1 = decrypt b k2 := by rw [decrypt, cipherDecrypt_congr h, decrypt]

end EquivalentKeys

theorem answerChecked_of_same_answer (ok : Config → Bool) {f : Bytes → Bytes} {k1 k2 : Bytes} (h : f k1 = f k2)
    (s : State) : ∃ r,
      answerChecked ok f { s with key := some k1 } = .next { s with key := some k1, rsp := some r } ∧
      answerChecked ok f { s with key := some k2 } = .next { s with key := some k2, rsp := some r } := by
  cases hok : ok s.cfg with
  | true => exact ⟨_, answerChecked_of_ok rfl hok, h ▸ answerChecked_of_ok rfl hok⟩
  | false => exact ⟨_, answerChecked_of_not_ok rfl hok, answerChecked_of_not_ok rfl hok⟩

/-- Settles O21: the key words are the first 16 bytes, and the cipher reads a key through its words only. -/
theorem equivalentKeysCipherAlike : Obligations.EquivalentKeysCipherAlike := by
  refine ⟨fun _ _ => keywords_eq_iff, fun s k1 k2 b i h hi => ?_⟩
  obtain rfl | rfl | rfl | rfl := hi
  · exact answerChecked_of_same_answer (rawLengthOk · b.length) (cipherEncrypt_congr h b) s
  · exact answerChecked_of_same_answer (rawLengthOk · b.length) (cipherDecrypt_congr h b) s
  · exact answerChecked_of_same_answer (envelopeLengthOk · b.length) (encrypt_congr h b) s
  · exact answerChecked_of_same_answer (envelopeLengthOk · b.length) (decrypt_congr h b) s

/-! ## After reset -/

/-- A multiple of 4 that bounds a length bounds the padded length. -/
theorem padlen_le_of_le {l m : Nat} (h : l ≤ m) (hm : m % 4 = 0) : padlen l ≤ m := by
  have := padlen_lt l
  have := padlen_mod l
  omega

/-- Settles O16: with no key the five commands stop at the key check, which the other two do not make. -/
theorem afterResetOnlySetkeyAndXformSucceed : Obligations.AfterResetOnlySetkeyAndXformSucceed := by
  rintro c b ⟨-, -, -, -, hd⟩
  refine ⟨fun i hi => ?_, fun h1 h2 => ?_, fun h => ⟨transform b, ?_⟩⟩
  · obtain rfl | rfl | rfl | rfl | rfl := hi
    · exact (exec_getkey_of_no_key rfl).trans (raise_eq .keyNotSet _)
    · exact (congrFun (exec_cenc_eq_answerChecked b) _).trans (answerChecked_of_no_key rfl)
    · exact (congrFun (exec_cdec_eq_answerChecked b) _).trans (answerChecked_of_no_key rfl)
    · exact (congrFun (exec_enc_eq_answerChecked b) _).trans (answerChecked_of_no_key rfl)
    · exact (congrFun (exec_dec_eq_answerChecked b) _).trans (answerChecked_of_no_key rfl)
  · rw [exec_setkey_of_validLength h1 h2, respondOk_eq, emptyResponse_frame]
    rfl
  · exact exec_xform_of_validLength (padlen_le_of_le h hd)

end Sys2Proof.Machine

/-! # Proofs: the laws of the byte-order transform (41_transform.md R82, R83). -/

namespace Sys2Proof.Machine

/-! ## The transform on byte sequences (R82) -/

theorem transform_transform_of_aligned {b : Bytes} (h : b.length % 4 = 0) : transform (transform b) = b := by
  induction b, h using aligned_induction with
  | nil => rfl
  | word b0 b1 b2 b3 c hc ih => rw [transform_word, transform_word, ih]

theorem pad0_aligned (b : Bytes) : (pad0 b).length % 4 = 0 := by rw [pad0_length]; exact padlen_mod _

theorem transform_transform (b : Bytes) : transform (transform b) = pad0 b := by
  rw [← transform_pad0 b, transform_transform_of_aligned (pad0_aligned b)]

theorem pad0_eq_self_iff {b : Bytes} : pad0 b = b ↔ b.length % 4 = 0 :=
  ⟨fun h => h ▸ pad0_aligned b, pad0_of_aligned⟩

theorem transform_append {b : Bytes} (h : b.length % 4 = 0) (c : Bytes) :
    transform (b ++ c) = transform b ++ transform c := by
  induction b, h using aligned_induction with
  | nil => rfl
  | word b0 b1 b2 b3 b hb ih => simp only [List.cons_append, transform_word, ih]

/-- Settles O27: every law follows from `T` undoing itself on whole words. -/
theorem transformLaws : Obligations.TransformLaws := by
  refine ⟨transform_length, fun b => transform_transform_of_aligned, fun b => ⟨transform_transform b, ?_, ?_⟩,
    transform_pad0, fun r hr => ⟨transform r, ?_, transform_transform_of_aligned hr, fun c hc hT => ?_⟩,
    fun b c hb => transform_append hb c⟩
  · rw [transform_transform, pad0_eq_self_iff]
  · rw [transform_transform, pad0_of_aligned (transform_aligned b)]
  · rw [transform_length, padlen_of_aligned hr]
  · rw [← hT, transform_transform_of_aligned (hc ▸ hr)]

/-! ## The transform on words (R83) -/

/-- Lane by lane, the four shifts of `bswap32` reach disjoint lanes. -/
theorem bswap32_lane (w : Word) (j : Fin 4) :
    (bswap32 w).extractLsb' (8 * j.val) 8 = w.extractLsb' (8 * (3 - j.val)) 8 := by
  apply BitVec.eq_of_getLsbD_eq
  intro i hi
  match j with
  | 0 | 1 | 2 | 3 => interval_cases i <;> simp [bswap32]

theorem bswap32_eq_packLe (w : Word) : bswap32 w =
    packLe (w.extractLsb' 24 8) (w.extractLsb' 16 8) (w.extractLsb' 8 8) (w.extractLsb' 0 8) := by
  rw [← packLe_lanes (bswap32 w)]
  exact packLe_inj.mpr ⟨bswap32_lane w 0, bswap32_lane w 1, bswap32_lane w 2, bswap32_lane w 3⟩

theorem bswap32_packLe (b0 b1 b2 b3 : Byte) : bswap32 (packLe b0 b1 b2 b3) = packLe b3 b2 b1 b0 := by
  obtain ⟨h0, h1, h2, h3⟩ := packLe_inj.mp (packLe_lanes (packLe b0 b1 b2 b3))
  rw [bswap32_eq_packLe, h0, h1, h2, h3]

theorem bswap32_bswap32 (w : Word) : bswap32 (bswap32 w) = w := by
  rw [bswap32_eq_packLe w, bswap32_packLe, packLe_lanes]

theorem wordsLe_transform {c : Bytes} (h : c.length % 4 = 0) :
    wordsLe (transform c) = (wordsLe c).map bswap32 := by
  induction c, h using aligned_induction with
  | nil => rfl
  | word b0 b1 b2 b3 c hc ih =>
    rw [transform_word, wordsLe_word, wordsLe_word, List.map_cons, bswap32_packLe, ih]

/-- The big-endian word is `bswap32` of the little-endian word. -/
theorem wordsBe_eq_map_bswap32 (c : Bytes) : wordsBe c = (wordsLe c).map bswap32 := by
  simp only [wordsBe, wordsLe, memRead4, List.map_map, Function.comp_def, bswap32_packLe]

theorem wordsLe_transform_eq_wordsBe {c : Bytes} (h : c.length % 4 = 0) : wordsLe (transform c) = wordsBe c := by
  rw [wordsLe_transform h, wordsBe_eq_map_bswap32]

/-- Settles O28: both sides are the words with their lanes reversed. -/
theorem transformIsBswapOnWords : Obligations.TransformIsBswapOnWords :=
  ⟨fun _ h => ⟨wordsLe_transform h, wordsLe_transform_eq_wordsBe h⟩, bswap32_bswap32, bswap32_lane,
    by decide, by decide⟩

end Sys2Proof.Machine

/-! # Proofs: encryption and decryption are inverse (42_cipher.md R101). -/

namespace Sys2Proof.Machine

/-! ## Undoing a pass of word updates -/

/-- A pass of updates is undone by a pass in the reverse order that undoes each update. -/
theorem foldl_reverse_foldl {α β : Type} {f g : α → β → α} {ps : List β}
    (h : ∀ v, ∀ p ∈ ps, g (f v p) p = v) (v : α) : ps.reverse.foldl g (ps.foldl f v) = v := by
  induction ps generalizing v with
  | nil => rfl
  | cons p ps ih =>
    rw [List.reverse_cons, List.foldl_concat, List.foldl_cons, ih fun v q hq => h v q (List.mem_cons_of_mem p hq)]
    exact h v p List.mem_cons_self

theorem reverse_range (n : Nat) : (List.range n).reverse = downwards n := by
  rw [List.range_eq_range', List.reverse_range', Nat.zero_add]
  rfl

theorem rightOf_ne {n p : Nat} (hn : 2 ≤ n) (hp : p < n) : rightOf n p ≠ p := by
  unfold rightOf; split <;> omega

theorem leftOf_ne {n p : Nat} (hn : 2 ≤ n) : leftOf n p ≠ p := by
  unfold leftOf; split <;> omega

/-- An update reads two neighbours that it does not write, so the same neighbours undo it. -/
theorem updateWord_updateWord {n p : Nat} (hn : 2 ≤ n) (hp : p < n) {f g : Nat → Word → Word → Word → Word}
    (h : ∀ x y z, g p (f p x y z) y z = x) (v : List Word) :
    updateWord g n (updateWord f n v p) p = v := by
  by_cases hv : p < v.length
  · have hself : readV v p = v[p] := List.getD_eq_getElem v 0 hv
    simp only [updateWord]
    rw [readV_set_eq hv, readV_set_ne (rightOf_ne hn hp).symm, readV_set_ne (leftOf_ne hn).symm, h,
      List.set_set, hself, List.set_getElem_self]
  · have hnoop : ∀ f, updateWord f n v p = v := fun f => List.set_eq_of_length_le (Nat.not_lt.mp hv)
    rw [hnoop, hnoop]

theorem decMix_encMix (k : KeyWords) (sum : Word) (p : Nat) (x y z : Word) :
    decMix k sum p (encMix k sum p x y z) y z = x := BitVec.add_sub_cancel ..

theorem encMix_decMix (k : KeyWords) (sum : Word) (p : Nat) (x y z : Word) :
    encMix k sum p (decMix k sum p x y z) y z = x := BitVec.sub_add_cancel ..

/-! ## Undoing a round and all rounds -/

section Rounds

variable (k : KeyWords) (v : List Word) {n : Nat} (hn : 2 ≤ n)
include hn

theorem decPass_encPass (sum : Word) : (downwards n).foldl (updateWord (decMix k sum) n)
    ((List.range n).foldl (updateWord (encMix k sum) n) v) = v := by
  rw [← reverse_range]
  exact foldl_reverse_foldl (fun v p hp =>
    updateWord_updateWord hn (List.mem_range.mp hp) (decMix_encMix k sum p) v) v

theorem encPass_decPass (sum : Word) : (List.range n).foldl (updateWord (encMix k sum) n)
    ((downwards n).foldl (updateWord (decMix k sum) n) v) = v := by
  rw [← List.reverse_reverse (List.range n), reverse_range]
  refine foldl_reverse_foldl (fun v p hp => updateWord_updateWord hn ?_ (encMix_decMix k sum p) v) v
  rwa [← reverse_range, List.mem_reverse, List.mem_range] at hp

/-- After `r` rounds of decryption the array is as encryption had it `r` rounds before its end. -/
theorem decRounds_bteaEnc {r : Nat} (hr : r ≤ rounds n) :
    (decRounds k n r (decStart (bteaEnc v n k) n)).v = (encRounds k n (rounds n - r) (encStart v n)).v := by
  induction r with
  | zero => rfl
  | succ r ih =>
    have hleft : rounds n - r = rounds n - (r + 1) + 1 := by omega
    rw [decRounds_succ_v k _ (by omega) (by omega), ih (by omega), hleft,
      encRounds_succ_v k v (by omega), decPass_encPass k _ hn]

/-- After `r` rounds of encryption the array is as decryption had it `r` rounds before its end. -/
theorem encRounds_bteaDec {r : Nat} (hr : r ≤ rounds n) :
    (encRounds k n r (encStart (bteaDec v n k) n)).v = (decRounds k n (rounds n - r) (decStart v n)).v := by
  induction r with
  | zero => rfl
  | succ r ih =>
    have hleft : rounds n - r = rounds n - (r + 1) + 1 := by omega
    have hsum : rounds n - (rounds n - (r + 1)) = r + 1 := by omega
    rw [encRounds_succ_v k _ (by omega), ih (by omega), hleft,
      decRounds_succ_v k v (by omega) (by omega), hsum, encPass_decPass k _ hn]

theorem bteaDec_bteaEnc : bteaDec (bteaEnc v n k) n k = v := by
  rw [bteaDec, decRounds_bteaEnc k v hn le_rfl, Nat.sub_self]
  rfl

theorem bteaEnc_bteaDec : bteaEnc (bteaDec v n k) n k = v := by
  rw [bteaEnc, encRounds_bteaDec k v hn le_rfl, Nat.sub_self]
  rfl

end Rounds

section Bytes

variable {b : Bytes} (h4 : b.length % 4 = 0) (h8 : 8 ≤ b.length) (key : Bytes)
include h4 h8

theorem cipherDecrypt_cipherEncrypt : cipherDecrypt (cipherEncrypt b key) key = b := by
  rw [cipherDecrypt, cipherEncrypt_length, Nat.mul_div_cancel_left _ (by decide), cipherEncrypt, wordsLe_bytesLe,
    bteaDec_bteaEnc _ _ (by omega), bytesLe_wordsLe h4]

theorem cipherEncrypt_cipherDecrypt : cipherEncrypt (cipherDecrypt b key) key = b := by
  rw [cipherEncrypt, cipherDecrypt_length, Nat.mul_div_cancel_left _ (by decide), cipherDecrypt, wordsLe_bytesLe,
    bteaEnc_bteaDec _ _ (by omega), bytesLe_wordsLe h4]

end Bytes

/-- Settles O34: the rounds of one direction undo those of the other, the last first, each word of a
round likewise. -/
theorem cipherDirectionsAreInverse : Obligations.CipherDirectionsAreInverse :=
  ⟨fun v _ k hn _ => ⟨bteaDec_bteaEnc k v hn, bteaEnc_bteaDec k v hn⟩,
    fun _ key h4 h8 => ⟨cipherDecrypt_cipherEncrypt h4 h8 key, cipherEncrypt_cipherDecrypt h4 h8 key⟩⟩

end Sys2Proof.Machine

/-! # Proofs: the laws of the envelope (43_envelope.md section 3). -/

namespace Sys2Proof.Machine

/-! ## The envelope on big-endian words (R124) -/

theorem bytesBe_cons (w : Word) (v : List Word) : bytesBe (w :: v) = (unpackLe w).reverse ++ bytesBe v := rfl

theorem transform_bytesLe (v : List Word) : transform (bytesLe v) = bytesBe v := by
  induction v with
  | nil => rfl
  | cons w v ih =>
    rw [bytesLe_cons, bytesBe_cons, ← ih]
    exact transform_word ..

theorem wordsLe_transform_eq_wordsBe_pad0 (b : Bytes) : wordsLe (transform b) = wordsBe (pad0 b) := by
  rw [← transform_pad0, wordsLe_transform_eq_wordsBe (pad0_aligned b)]

/-- Settles O39: both transforms turn little-endian words into big-endian ones. -/
theorem envelopeIsBigEndianXxtea : Obligations.EnvelopeIsBigEndianXxtea := fun b key _ =>
  ⟨by rw [encrypt_eq, transform_bytesLe, wordsLe_transform_eq_wordsBe_pad0],
    by rw [decrypt_eq, transform_bytesLe, wordsLe_transform_eq_wordsBe_pad0]⟩

/-! ## Opening an envelope (R125, R126) -/

theorem encrypt_pad0 (b key : Bytes) : encrypt (pad0 b) key = encrypt b key := by
  rw [encrypt, transform_pad0, encrypt]

theorem cipherEncrypt_transform_aligned (b key : Bytes) : (cipherEncrypt (transform b) key).length % 4 = 0 := by
  rw [cipherEncrypt_length, Nat.mul_mod_right]

theorem cipherDecrypt_transform_aligned (b key : Bytes) : (cipherDecrypt (transform b) key).length % 4 = 0 := by
  rw [cipherDecrypt_length, Nat.mul_mod_right]

section Open

variable {b : Bytes} (h : 8 ≤ padlen b.length) (key : Bytes)
include h

/-- The inner transforms cancel, then the cipher, then the outer transforms but for the padding. -/
theorem decrypt_encrypt : decrypt (encrypt b key) key = pad0 b := by
  rw [decrypt, encrypt, transform_transform_of_aligned (cipherEncrypt_transform_aligned b key),
    cipherDecrypt_cipherEncrypt (transform_aligned b) ((transform_length b).symm ▸ h), transform_transform]

theorem encrypt_decrypt : encrypt (decrypt b key) key = pad0 b := by
  rw [encrypt, decrypt, transform_transform_of_aligned (cipherDecrypt_transform_aligned b key),
    cipherEncrypt_cipherDecrypt (transform_aligned b) ((transform_length b).symm ▸ h), transform_transform]

end Open

/-- Five bytes are padded to two words at least. -/
theorem eight_le_padlen {l : Nat} (h : 5 ≤ l) : 8 ≤ padlen l := by
  have := le_padlen l
  have := padlen_mod l
  omega

/-- Settles O41: the envelope pads its input, and opening it gives the padded input back. -/
theorem unalignedEnvelopeReturnsPaddedInput : Obligations.UnalignedEnvelopeReturnsPaddedInput := fun b key h =>
  ⟨(encrypt_pad0 b key).symm, decrypt_encrypt (eight_le_padlen h) key, encrypt_length b key⟩

/-! ## The envelope commands (R125, R128) -/

section Outcomes

variable {s : State} {k b : Bytes} (hk : s.key = some k)
include hk

theorem exec_enc_of_ok (h8 : 8 ≤ padlen b.length) (hmax : padlen b.length ≤ s.cfg.dmax) :
    exec (.enc b) s = .next { s with rsp := some (Response.frame { status := .ok, payload := encrypt b k }) } :=
  (congrFun (exec_enc_eq_answerChecked b) s).trans <|
    answerChecked_of_ok hk <| (envelopeLengthOk_iff ..).mpr ⟨h8, hmax⟩

theorem exec_dec_of_ok (h8 : 8 ≤ padlen b.length) (hmax : padlen b.length ≤ s.cfg.dmax) :
    exec (.dec b) s = .next { s with rsp := some (Response.frame { status := .ok, payload := decrypt b k }) } :=
  (congrFun (exec_dec_eq_answerChecked b) s).trans <|
    answerChecked_of_ok hk <| (envelopeLengthOk_iff ..).mpr ⟨h8, hmax⟩

theorem exec_cenc_of_ok (h4 : b.length % 4 = 0) (h8 : 8 ≤ b.length) (hmax : b.length ≤ s.cfg.dmax) :
    exec (.cenc b) s = .next { s with rsp := some (Response.frame { status := .ok, payload := cipherEncrypt b k }) } :=
  (congrFun (exec_cenc_eq_answerChecked b) s).trans <|
    answerChecked_of_ok hk <| (rawLengthOk_iff ..).mpr ⟨h4, h8, hmax⟩

theorem exec_cdec_of_ok (h4 : b.length % 4 = 0) (h8 : 8 ≤ b.length) (hmax : b.length ≤ s.cfg.dmax) :
    exec (.cdec b) s = .next { s with rsp := some (Response.frame { status := .ok, payload := cipherDecrypt b k }) } :=
  (congrFun (exec_cdec_eq_answerChecked b) s).trans <|
    answerChecked_of_ok hk <| (rawLengthOk_iff ..).mpr ⟨h4, h8, hmax⟩

end Outcomes

/-- Settles O40: what one command answers is aligned and as long as its payload, so the other opens it. -/
theorem envelopeRoundTrip : Obligations.EnvelopeRoundTrip := by
  intro s t k b hs ht hcfg h4 h8 hmax
  have hlen : padlen b.length = b.length := padlen_of_aligned h4
  have hlen8 : 8 ≤ padlen b.length := h8.trans_eq hlen.symm
  have hlenMax : padlen b.length ≤ s.cfg.dmax := hlen.trans_le hmax
  have hanswer : padlen (padlen b.length) = padlen b.length := padlen_padlen _
  refine ⟨⟨encrypt b k, exec_enc_of_ok hs hlen8 hlenMax, ?_⟩, ⟨decrypt b k, exec_dec_of_ok hs hlen8 hlenMax, ?_⟩⟩
  · rw [exec_dec_of_ok ht (by rwa [encrypt_length, hanswer]) (by rwa [encrypt_length, hanswer, hcfg]),
      decrypt_encrypt hlen8, pad0_of_aligned h4]
  · rw [exec_enc_of_ok ht (by rwa [decrypt_length, hanswer]) (by rwa [decrypt_length, hanswer, hcfg]),
      encrypt_decrypt hlen8, pad0_of_aligned h4]

/-- Settles O42: each command of the sequence meets a length that it accepts, up to `CENC` of fewer
than two words. -/
theorem envelopeIsXformCipherXform : Obligations.EnvelopeIsXformCipherXform := by
  rintro s k b ⟨-, -, hd8, -, hd4⟩ hk
  refine ⟨fun h5 hmax => ?_, fun h => ?_⟩
  · have h8 : 8 ≤ padlen b.length := eight_le_padlen h5
    have hpad : padlen b.length ≤ s.cfg.dmax := padlen_le_of_le hmax hd4
    have hT := transform_length b
    have hxform : ∀ c : Bytes, c.length = 4 * ((transform b).length / 4) → padlen c.length ≤ s.cfg.dmax :=
      fun c hc => by rwa [hc, hT, padlen_words_padlen]
    refine ⟨⟨transform b, cipherEncrypt (transform b) k, encrypt b k, ?_, ?_, ?_, ?_⟩,
      ⟨transform b, cipherDecrypt (transform b) k, decrypt b k, ?_, ?_, ?_, ?_⟩⟩
    · exact exec_xform_of_validLength hpad
    · exact exec_cenc_of_ok hk (transform_aligned b) (hT ▸ h8) (hT ▸ hpad)
    · exact exec_xform_of_validLength (hxform _ (cipherEncrypt_length ..))
    · exact exec_enc_of_ok hk h8 hpad
    · exact exec_xform_of_validLength hpad
    · exact exec_cdec_of_ok hk (transform_aligned b) (hT ▸ h8) (hT ▸ hpad)
    · exact exec_xform_of_validLength (hxform _ (cipherDecrypt_length ..))
    · exact exec_dec_of_ok hk h8 hpad
  · have h4 : padlen b.length ≤ 4 := padlen_le_of_le h rfl
    have hshort : (transform b).length < 8 := (transform_length b).trans_lt (by omega)
    refine ⟨?_, transform b, exec_xform_of_validLength (by omega), ?_⟩
    · rw [exec_enc_eq_answerChecked]
      exact answerChecked_of_not_ok hk (envelopeLengthOk_eq_false (.inl (by omega)))
    · rw [exec_cenc_eq_answerChecked]
      exact answerChecked_of_not_ok hk (rawLengthOk_eq_false (.inr (.inl hshort)))

/-- Settles O43: the payload and key of the example of R122, whose envelope is known. -/
theorem bothTransformsMatter : Obligations.BothTransformsMatter := by
  refine ⟨[0x2A, 0x2C, 0x00, 0x00, 0x00, 0x00, 0x00, 0x00],
    [0x00, 0x01, 0x02, 0x03, 0x04, 0x05, 0x06, 0x07, 0x08, 0x09, 0x0A, 0x0B, 0x0C, 0x0D, 0x0E, 0x0F],
    by decide, by decide, ?_⟩
  rw [encrypt_example]
  decide +kernel

end Sys2Proof.Machine

/-! # Proofs: runs. Acceptance order, keys that stay in force, several hosts (20_memory.md R39, R40). -/

namespace Sys2Proof.Machine

open Sys2Proof.Safety

/-! ## Running all events (R39) -/

/-- By induction on the events: a frame adds its response and leaves its key register to the rest, a
reset leaves no key to the rest. -/
theorem run_length_port {es : List Event} {s : State} (hp : s.port = es) (hrsp : s.rsp = none) :
    core.run es.length s = .next { s with
      key := (outcome s.cfg s.key es).1, port := []
      delivered := s.delivered ++ (outcome s.cfg s.key es).2 } := by
  induction es generalizing s with
  | nil =>
    rw [List.length_nil, run_zero]
    simp [outcome, ← hp]
  | cons e es ih =>
    cases e with
    | command h f =>
      rw [List.length_cons, run_succ (step_eq_answer hp), ih rfl rfl]
      simp [outcome, hrsp]
    | reset =>
      rw [List.length_cons, run_succ (step_of_reset hp (.inl rfl)), ih rfl rfl]
      simp [outcome, hrsp]
    | resetDuring h f =>
      rw [List.length_cons, run_succ (step_of_reset hp (.inr ⟨h, f, rfl⟩)), ih rfl rfl]
      simp [outcome, hrsp]

/-- Settles O44: the case of all events of the port. -/
theorem acceptanceOrderDecidesEverything : Obligations.AcceptanceOrderDecidesEverything :=
  fun _ hrsp => run_length_port rfl hrsp

/-! ## Frames that are no `SETKEY` -/

theorem step_of_not_setkey {s : State} {h : Nat} {f : Bytes} {es : List Event} (hp : s.port = .command h f :: es)
    (hf : ∀ p, decodeFrame f ≠ .command (.setkey p)) : step s = .next { s with
      port := es, rsp := none
      delivered := s.delivered ++ [{ host := h, frame := (answer s.cfg s.key f).frame }] } := by
  rw [step_eq_answer hp, keyAfter_of_not_setkey s.cfg s.key hf]

theorem run_two_of_not_setkey (s : State) (h g : Nat) {e f : Bytes} (es : List Event)
    (he : ∀ p, decodeFrame e ≠ .command (.setkey p)) (hf : ∀ p, decodeFrame f ≠ .command (.setkey p)) :
    core.run 2 { s with port := .command h e :: .command g f :: es } = .next { s with
      port := es, rsp := none
      delivered := s.delivered ++ [{ host := h, frame := (answer s.cfg s.key e).frame },
        { host := g, frame := (answer s.cfg s.key f).frame }] } := by
  rw [run_succ (step_of_not_setkey rfl he), run_succ (step_of_not_setkey rfl hf), run_zero, List.append_assoc]
  rfl

/-- Settles O45: both frames find the key register of the start, whichever comes first. -/
theorem commandsOtherThanSetkeyCommute : Obligations.CommandsOtherThanSetkeyCommute :=
  fun s h g _ _ es he hf => ⟨_, _, run_two_of_not_setkey s h g es he hf, run_two_of_not_setkey s g h es hf he⟩

/-- Settles O46: each step consumes a frame that is no `SETKEY`, or waits, and leaves such frames only. -/
theorem keyStaysInForce : Obligations.KeyStaysInForce := by
  intro s k hk hport n
  induction n generalizing s with
  | zero => exact ⟨s, rfl, hk⟩
  | succ n ih =>
    match hp : s.port with
    | [] =>
      rw [run_succ (step_of_no_event hp)]
      exact ih s hk hport
    | e :: es =>
      rw [hp, List.forall_mem_cons] at hport
      obtain ⟨⟨h, f, rfl, hf⟩, hes⟩ := hport
      rw [run_succ (step_of_not_setkey hp hf)]
      exact ih _ hk hes

/-! ## Two hosts (R40) -/

/-- The events of hosts `a` and `g`, who hand over the frames `xs` and `ys`, in some acceptance order. -/
inductive Interleaving (a g : Nat) : List Bytes → List Bytes → List Event → Prop where
  | nil : Interleaving a g [] [] []
  | left {xs ys : List Bytes} {es : List Event} (x : Bytes) (h : Interleaving a g xs ys es) :
      Interleaving a g (x :: xs) ys (.command a x :: es)
  | right {xs ys : List Bytes} {es : List Event} (y : Bytes) (h : Interleaving a g xs ys es) :
      Interleaving a g xs (y :: ys) (.command g y :: es)

theorem commandsOf_cons_self (a : Nat) (f : Bytes) (es : List Event) :
    commandsOf a (.command a f :: es) = f :: commandsOf a es := by
  simp [commandsOf]

theorem commandsOf_cons_of_ne {a g : Nat} (h : g ≠ a) (f : Bytes) (es : List Event) :
    commandsOf a (.command g f :: es) = commandsOf a es := by
  simp [commandsOf, h]

theorem interleaving_commandsOf {a g : Nat} (hne : a ≠ g) {es : List Event}
    (hes : ∀ e ∈ es, ∃ f, e = .command a f ∨ e = .command g f) :
    Interleaving a g (commandsOf a es) (commandsOf g es) es := by
  induction es with
  | nil => exact .nil
  | cons e es ih =>
    rw [List.forall_mem_cons] at hes
    obtain ⟨⟨f, rfl | rfl⟩, hes⟩ := hes
    · rw [commandsOf_cons_self, commandsOf_cons_of_ne hne]
      exact .left f (ih hes)
    · rw [commandsOf_cons_self, commandsOf_cons_of_ne hne.symm]
      exact .right f (ih hes)

/-- One frame among two others comes last, between them or first. -/
theorem Interleaving.two_one {a g : Nat} {x x' y : Bytes} {es : List Event}
    (h : Interleaving a g [x, x'] [y] es) :
    es = [.command a x, .command a x', .command g y] ∨ es = [.command a x, .command g y, .command a x'] ∨
      es = [.command g y, .command a x, .command a x'] :=
  match h with
  | .left _ (.left _ (.right _ .nil)) => .inl rfl
  | .left _ (.right _ (.left _ .nil)) => .inr (.inl rfl)
  | .right _ (.left _ (.left _ .nil)) => .inr (.inr rfl)

/-! ### What the table says of the two hosts' frames -/

section Frames

variable {c : Config} {b k : Bytes} (hc : c.Legal)
include hc

theorem frameStatus_setkey (key : Option Bytes) (h1 : 1 ≤ k.length) (h2 : k.length ≤ c.kmax) :
    frameStatus c key.isSome (encode (.setkey k)) = .ok := by
  obtain ⟨-, hkmax, -⟩ := hc
  have hwf : (Instr.setkey k).WellFormed := h2.trans hkmax
  rw [frameStatus_encode c _ hwf, commandStatus_setkey_eq_ok]
  exact ⟨h1, h2⟩

theorem keyAfter_setkey (key : Option Bytes) (h1 : 1 ≤ k.length) (h2 : k.length ≤ c.kmax) :
    keyAfter c key (encode (.setkey k)) = some k := if_pos ⟨rfl, frameStatus_setkey hc key h1 h2⟩

theorem answer_setkey_frame (key : Option Bytes) (h1 : 1 ≤ k.length) (h2 : k.length ≤ c.kmax) :
    (answer c key (encode (.setkey k))).frame = [0x00, 0x00, 0x00] := by
  rw [answer_of_ok (frameStatus_setkey hc key h1 h2)]
  exact emptyResponse_frame .ok

theorem answer_enc (k : Bytes) (h8 : 8 ≤ padlen b.length) (hmax : padlen b.length ≤ c.dmax) :
    answer c (some k) (encode (.enc b)) = { status := .ok, payload := encrypt b k } := by
  obtain ⟨-, -, -, hdmax, -⟩ := hc
  have hwf : (Instr.enc b).WellFormed :=
    calc b.length ≤ padlen b.length := le_padlen _
      _ ≤ 65535 := by omega
  have hlen : ¬ (padlen b.length < 8 ∨ c.dmax < padlen b.length) := by omega
  exact answer_of_ok ((frameStatus_encode c _ hwf).trans (keyedStatus_eq_ok.mpr ⟨rfl, hlen⟩))

end Frames

theorem keyAfter_enc (c : Config) (key : Option Bytes) (b : Bytes) : keyAfter c key (encode (.enc b)) = key :=
  have hop : (opcode (.enc b)).toNat ≠ 1 := by simp [opcode]
  if_neg fun h => hop h.1

/-! ### What a run over their events gives -/

section Runs

variable {c : Config} {b k : Bytes} (hc : c.Legal)
include hc

theorem outcome_setkey (h1 : 1 ≤ k.length) (h2 : k.length ≤ c.kmax) (key : Option Bytes) (h : Nat)
    (es : List Event) :
    outcome c key (.command h (encode (.setkey k)) :: es) =
      ((outcome c (some k) es).1, { host := h, frame := [0x00, 0x00, 0x00] } :: (outcome c (some k) es).2) := by
  rw [outcome, keyAfter_setkey hc key h1 h2, answer_setkey_frame hc key h1 h2]

theorem outcome_enc (h8 : 8 ≤ padlen b.length) (hmax : padlen b.length ≤ c.dmax) (k : Bytes) (h : Nat)
    (es : List Event) :
    outcome c (some k) (.command h (encode (.enc b)) :: es) =
      ((outcome c (some k) es).1,
        { host := h, frame := Response.frame { status := .ok, payload := encrypt b k } } ::
          (outcome c (some k) es).2) := by
  rw [outcome, keyAfter_enc, answer_enc hc k h8 hmax]

end Runs

theorem responsesTo_cons_self (a : Nat) (f : Bytes) (ds : List Delivery) :
    responsesTo a ({ host := a, frame := f } :: ds) = f :: responsesTo a ds := by
  simp [responsesTo]

theorem responsesTo_cons_of_ne {a g : Nat} (h : g ≠ a) (f : Bytes) (ds : List Delivery) :
    responsesTo a ({ host := g, frame := f } :: ds) = responsesTo a ds := by
  simp [responsesTo, h]

/-- What a run over three events leaves and host `a` gets is read off `outcome`. -/
theorem exists_run_of_outcome {s : State} {a : Nat} {es : List Event} {key : Bytes} {rs : List Bytes}
    (hrsp : s.rsp = none) (hdel : s.delivered = []) (hlen : es.length = 3)
    (hkey : (outcome s.cfg s.key es).1 = some key) (hrs : responsesTo a (outcome s.cfg s.key es).2 = rs) :
    ∃ t, core.run 3 { s with port := es } = .next t ∧ t.key = some key ∧ responsesTo a t.delivered = rs := by
  have hrun := run_length_port (s := { s with port := es }) rfl hrsp
  rw [hlen] at hrun
  exact ⟨_, hrun, hkey, by simpa only [hdel, List.nil_append] using hrs⟩

/-- Settles O47: there are three interleavings, and `outcome` gives the row of the table for each. -/
theorem twoHostsShareOneKey : Obligations.TwoHostsShareOneKey := by
  rintro s a g kA kB b ⟨hc, -, hrsp, -⟩ hne hA1 hA2 hB1 hB2 h8 hmax hdel ends
  have setA := outcome_setkey hc hA1 hA2
  have setB := outcome_setkey hc hB1 hB2
  have encB := outcome_enc hc h8 hmax
  have toA := responsesTo_cons_self a
  have toG := responsesTo_cons_of_ne hne.symm
  have last : ends [.command a (encode (.setkey kA)), .command a (encode (.enc b)),
      .command g (encode (.setkey kB))] kB kA :=
    exists_run_of_outcome hrsp hdel rfl (by rw [setA, encB, setB]; rfl) (by rw [setA, encB, setB, toA, toA, toG]; rfl)
  have between : ends [.command a (encode (.setkey kA)), .command g (encode (.setkey kB)),
      .command a (encode (.enc b))] kB kB :=
    exists_run_of_outcome hrsp hdel rfl (by rw [setA, setB, encB]; rfl) (by rw [setA, setB, encB, toA, toG, toA]; rfl)
  have first : ends [.command g (encode (.setkey kB)), .command a (encode (.setkey kA)),
      .command a (encode (.enc b))] kA kA :=
    exists_run_of_outcome hrsp hdel rfl (by rw [setB, setA, encB]; rfl) (by rw [setB, setA, encB, toG, toA, toA]; rfl)
  refine ⟨fun es hes ha hg => ?_, last, between, first⟩
  have hinter := interleaving_commandsOf hne hes
  rw [ha, hg] at hinter
  obtain rfl | rfl | rfl := hinter.two_one
  · exact .inl last
  · exact .inr (.inl between)
  · exact .inr (.inr first)

end Sys2Proof.Machine
